-- ==== Sys2Proof/Word.lean ====
section
/-! DEFINITION. The word types of crc_engine (00_scope.md R6, R9; 30_encoding.md R70). Every value is unsigned. -/

namespace Sys2Proof

/-- A 64-bit register, operand `OP` or response datum `RDATA` (R6 `DATAPATH_W`, R70, R77). -/
abbrev Word := BitVec 64

/-- A byte of `MEM`, and the byte field `B` of a command word (R51, R71). -/
abbrev Byte := BitVec 8

/-- A 32-bit command word `CW` (R70). -/
abbrev CmdWord := BitVec 32

end Sys2Proof
end

