-- ==== Sys2Proof/Syntax.lean ====
section
/-! DEFINITION. The fourteen commands of 30_encoding.md R74, one constructor per row of spec/opcode_table.json. A command
carries the fields of `CW` (R71) and the part of `OP` (R72) that it reads, each at its own width (R73). -/

namespace Sys2Proof

/-- A decoded command. -/
inductive Instr where
  /-- `CFGW` (40_configuration.md R101): stage the width `N` and the flags `RI`, `RO`. -/
  | cfgw (n : BitVec 7) (ri ro : Bool)
  /-- `CFGPOLY` (R102): stage the polynomial `OP`. -/
  | cfgpoly (op : Word)
  /-- `CFGXIN` (R103): stage `xor_in` from `OP`. -/
  | cfgxin (op : Word)
  /-- `CFGXOUT` (R104): stage `xor_out` from `OP`. -/
  | cfgxout (op : Word)
  /-- `CFGCOMMIT` (R105). -/
  | cfgcommit
  /-- `INIT` (41_crc_engine.md R125). -/
  | init
  /-- `UPDATE` (R126): fold `MEM[BASE .. BASE+LEN-1]`. -/
  | update (base len : BitVec 32)
  /-- `UPDATEB` (R127): fold the byte `B`. -/
  | updateb (b : Byte)
  /-- `FINAL` (R128). -/
  | final
  /-- `REFLECT` (42_bit_reflect.md R152): reflect the low `N` bits of `OP`. -/
  | reflect (n : BitVec 7) (op : Word)
  /-- `VERIFY` (43_syndrome_verify.md R165). -/
  | verify
  /-- `VERIFYI` (R166): verify the checksum `OP`. -/
  | verifyi (op : Word)
  /-- `READ` (44_control.md R180): read the register with index `B`. -/
  | read (b : Byte)
  /-- `SRESET` (R182). -/
  | sreset
  deriving DecidableEq, Repr

/-- The opcode `CW[7:0]` of a command (30_encoding.md R74). -/
def Instr.opcode : Instr → Byte
  | .cfgw .. => 0x01
  | .cfgpoly .. => 0x02
  | .cfgxin .. => 0x03
  | .cfgxout .. => 0x04
  | .cfgcommit => 0x05
  | .init => 0x10
  | .update .. => 0x11
  | .updateb .. => 0x12
  | .final => 0x13
  | .reflect .. => 0x20
  | .verify => 0x30
  | .verifyi .. => 0x31
  | .read .. => 0x40
  | .sreset => 0xFF

end Sys2Proof
end

