-- ==== Sys2Proof/WellFormed.lean ====
section
/-! DEFINITION. The operand ranges of 30_encoding.md R73. A field value that decodes but that its command does not accept
(`N` outside 1..64 of `REFLECT`, `B` above 12 of `READ`) is no ill-formed command: it executes and raises its error (R76).
The operands are typed at their fields' widths, so every term meets these ranges (Laws/Encoding.lean proves it); the
operands of the assembler (R78) are plain numbers, and their checks are AsmLine.wf in Machine/Assembler.lean. -/

namespace Sys2Proof

/-- Every operand lies in the range of its field (R73). -/
def Instr.wf : Instr → Bool
  | .cfgw n _ _ => n.toNat ≤ 127
  | .cfgpoly op => op.toNat < 2 ^ 64
  | .cfgxin op => op.toNat < 2 ^ 64
  | .cfgxout op => op.toNat < 2 ^ 64
  | .cfgcommit => true
  | .init => true
  | .update base len => base.toNat < 2 ^ 32 && len.toNat < 2 ^ 32
  | .updateb b => b.toNat ≤ 255
  | .final => true
  | .reflect n op => n.toNat ≤ 127 && op.toNat < 2 ^ 64
  | .verify => true
  | .verifyi op => op.toNat < 2 ^ 64
  | .read b => b.toNat ≤ 255
  | .sreset => true

end Sys2Proof
end

