-- ==== Sys2Proof/Decode.lean ====
section
/-! DEFINITION. Decoding of a command `(CW, OP)` by the rows of 30_encoding.md R74, total on every word (R75), and the
encoder of 30_encoding.md R78. -/

namespace Sys2Proof

/-! ## Fields (R71, R72, R73) -/

def fieldOpc (cw : CmdWord) : Byte := cw.extractLsb' 0 8
def fieldN (cw : CmdWord) : BitVec 7 := cw.extractLsb' 8 7
def fieldB (cw : CmdWord) : Byte := cw.extractLsb' 16 8
def fieldRI (cw : CmdWord) : Bool := cw.getLsbD 24
def fieldRO (cw : CmdWord) : Bool := cw.getLsbD 25

/-- `BASE = OP[31:0]` (R72). -/
def operandBase (op : Word) : BitVec 32 := op.extractLsb' 0 32

/-- `LEN = OP[63:32]` (R72). -/
def operandLen (op : Word) : BitVec 32 := op.extractLsb' 32 32

/-! ## The opcode map (R74) -/

/-- One row of R74: a word selects the command when `CW & mask = pattern`. -/
structure Row where
  mask : CmdWord
  pattern : CmdWord
  make : CmdWord → Word → Instr

def opcodeRows : List Row :=
  [⟨0xFCFF80FF, 0x00000001, fun cw _ => .cfgw (fieldN cw) (fieldRI cw) (fieldRO cw)⟩,
   ⟨0xFFFFFFFF, 0x00000002, fun _ op => .cfgpoly op⟩,
   ⟨0xFFFFFFFF, 0x00000003, fun _ op => .cfgxin op⟩,
   ⟨0xFFFFFFFF, 0x00000004, fun _ op => .cfgxout op⟩,
   ⟨0xFFFFFFFF, 0x00000005, fun _ _ => .cfgcommit⟩,
   ⟨0xFFFFFFFF, 0x00000010, fun _ _ => .init⟩,
   ⟨0xFFFFFFFF, 0x00000011, fun _ op => .update (operandBase op) (operandLen op)⟩,
   ⟨0xFF00FFFF, 0x00000012, fun cw _ => .updateb (fieldB cw)⟩,
   ⟨0xFFFFFFFF, 0x00000013, fun _ _ => .final⟩,
   ⟨0xFFFF80FF, 0x00000020, fun cw op => .reflect (fieldN cw) op⟩,
   ⟨0xFFFFFFFF, 0x00000030, fun _ _ => .verify⟩,
   ⟨0xFFFFFFFF, 0x00000031, fun _ op => .verifyi op⟩,
   ⟨0xFF00FFFF, 0x00000040, fun cw _ => .read (fieldB cw)⟩,
   ⟨0xFFFFFFFF, 0x000000FF, fun _ _ => .sreset⟩]

/-- The two kinds of illegal word (R75). -/
inductive Illegal where
  /-- `CW[7:0]` is an unassigned opcode. -/
  | unassignedOpcode (opc : Byte)
  /-- The opcode is assigned, and a bit outside its row's fields is 1. -/
  | reservedBitSet (opc : Byte)
  deriving DecidableEq, Repr

/-- Whether some row of R74 has this opcode. -/
def opcodeAssigned (opc : Byte) : Bool := opcodeRows.any fun r => fieldOpc r.pattern == opc

/-- The command of the one row that matches `CW`, or the kind of illegal word (R74, R75). -/
def decode (cw : CmdWord) (op : Word) : Except Illegal Instr :=
  match opcodeRows.find? fun r => cw &&& r.mask == r.pattern with
  | some r => .ok (r.make cw op)
  | none =>
    if opcodeAssigned (fieldOpc cw) then .error (.reservedBitSet (fieldOpc cw))
    else .error (.unassignedOpcode (fieldOpc cw))

/-! ## Encoding (R74, R78) -/

/-- The command word of a command, in the bit order of R74's patterns (bit 31 first). -/
def encodeCw : Instr → CmdWord
  | .cfgw n ri ro => 0#6 ++ BitVec.ofBool ro ++ BitVec.ofBool ri ++ 0#8 ++ 0#1 ++ n ++ 0x01#8
  | .cfgpoly _ => 0x02
  | .cfgxin _ => 0x03
  | .cfgxout _ => 0x04
  | .cfgcommit => 0x05
  | .init => 0x10
  | .update _ _ => 0x11
  | .updateb b => 0#8 ++ b ++ 0#8 ++ 0x12#8
  | .final => 0x13
  | .reflect n _ => 0#17 ++ n ++ 0x20#8
  | .verify => 0x30
  | .verifyi _ => 0x31
  | .read b => 0#8 ++ b ++ 0#8 ++ 0x40#8
  | .sreset => 0xFF

/-- The operand of a command; an unused `OP` is assembled as 0 (R78). -/
def encodeOp : Instr → Word
  | .cfgpoly op => op
  | .cfgxin op => op
  | .cfgxout op => op
  | .update base len => len ++ base
  | .reflect _ op => op
  | .verifyi op => op
  | .cfgw _ _ _ => 0
  | .cfgcommit => 0
  | .init => 0
  | .updateb _ => 0
  | .final => 0
  | .verify => 0
  | .read _ => 0
  | .sreset => 0

/-- The pair delivered on the command port (R70, R78). -/
def encode (i : Instr) : CmdWord × Word := (encodeCw i, encodeOp i)

/-! ## The opcode table's numbering -/

/-- The command word in an instruction of `nbits` bits numbered as spec/opcode_table.json numbers them: `CW` is bits 31..0. -/
def tableCw (nbits w : Nat) : CmdWord := BitVec.ofNat 32 (w % 2 ^ nbits)

/-- The operand beside it: bits 95..32, zero where the table gives fewer bits. -/
def tableOp (nbits w : Nat) : Word := BitVec.ofNat 64 (w % 2 ^ nbits / 2 ^ 32)

/-- The command this decoder reads from a table word, `none` where the word is illegal. -/
def decodeTableWord (nbits w : Nat) : Option Instr := (decode (tableCw nbits w) (tableOp nbits w)).toOption

end Sys2Proof
end

