-- ==== Sys2Proof/Config.lean ====
section
/-! DEFINITION. What the spec leaves to the platform or leaves free: `MEM_SIZE`, the contents of a byte of `MEM` that
nothing has written, and the bytes of the host-write hazard. -/

namespace Sys2Proof.Config

/-- The highest address of `MEM` (00_scope.md R6, 20_memory.md R51). No body: `MEM_SIZE` is an OPEN parameter, so nothing
can be proved of it but its range. Log 1. -/
opaque memTop : BitVec 32

/-- `MEM_SIZE`, with `1 <= MEM_SIZE <= 2^32` (R6, R51). Log 1. -/
def memSize : Nat := memTop.toNat + 1

/-- What a byte of `MEM` that is not listed reads as. 93_implementation_defined.md OP3 says `any value` at power-up.
DESIGN CHOICE, unsafe: log 2. -/
def memFill : Byte := 0

/-- The free bytes of the host-write hazard (20_memory.md R63, "a free draw for each byte"), by the number of the draw.
No body: a claim holds whatever they are. Log 3. -/
opaque freeByte : Nat → Byte

end Sys2Proof.Config
end

