-- ==== Sys2Proof/Machine/State.lean ====
section
/-! DEFINITION. The state of crc_engine (10_state.md R21, R40), its memory (20_memory.md R51), its two ports (30_encoding.md
R70, R77), and the reset state (70_reset_and_hazards.md R231). -/

namespace Sys2Proof.Machine

/-- `PHASE`, the lifecycle of `CRC_REG` (10_state.md R32). The value 3 is never held. Log 10. -/
inductive Phase where
  /-- 0: no register produced since reset. -/
  | idle
  /-- 1: raw accumulator. -/
  | pre
  /-- 2: finalized checksum. -/
  | final
  deriving DecidableEq, Repr

/-- `RSTAT` and `ERRCODE` (60_exceptions.md R200). The codes 10 to 15 are never produced. Log 10. -/
inductive Code where
  /-- 0, success. -/
  | ok
  /-- 1, `ERR_ILLEGAL` (R201). -/
  | illegal
  /-- 2, `ERR_CONFIG` (R202). -/
  | config
  /-- 3, `ERR_CFG_LOCKED` (R203). -/
  | cfgLocked
  /-- 4, `ERR_NOT_CONFIGURED` (R204). -/
  | notConfigured
  /-- 5, `ERR_PHASE` (R205). -/
  | phase
  /-- 6, `ERR_RANGE` (R206). -/
  | range
  /-- 7, `ERR_ARG` (R207). -/
  | arg
  /-- 8, `ERR_DEFECT` (R208). -/
  | defect
  /-- 9, `ERR_FAULTED` (R209). -/
  | faulted
  deriving DecidableEq, Repr

/-- The configuration record and its derived fields (10_state.md R22 to R28), written by `CFGCOMMIT` only. -/
structure CfgRegs where
  /-- `WIDTH` (R22). -/
  width : BitVec 7
  /-- `REFLECT_IN` (R23). -/
  reflectIn : Bool
  /-- `REFLECT_OUT` (R23). -/
  reflectOut : Bool
  /-- `POLY` (R24). -/
  poly : Word
  /-- `XOR_IN` (R25). -/
  xorIn : Word
  /-- `XOR_OUT` (R25). -/
  xorOut : Word
  /-- `CRC_MASK` (R26). -/
  crcMask : Word
  /-- `MSB_MASK` (R27). -/
  msbMask : Word
  /-- `SHIFT` (R28). -/
  shift : BitVec 3
  deriving DecidableEq, Repr

/-- The hidden staging registers (10_state.md R40). -/
structure Staging where
  /-- `STG_WIDTH`. -/
  width : BitVec 7
  /-- `STG_RI`. -/
  ri : Bool
  /-- `STG_RO`. -/
  ro : Bool
  /-- `STG_POLY`. -/
  poly : Word
  /-- `STG_XIN`. -/
  xin : Word
  /-- `STG_XOUT`. -/
  xout : Word
  deriving DecidableEq, Repr

/-- The fault fields (10_state.md R37, R38). -/
structure ErrRegs where
  /-- `FAULTED`. -/
  faulted : Bool
  /-- `ERRCODE`. -/
  code : Code
  /-- `ERR_CW`. -/
  cw : CmdWord
  /-- `ERR_INFO`. -/
  info : Word
  deriving DecidableEq, Repr

/-- `MEM` (20_memory.md R51): `size` bytes at addresses `0 .. size-1`, and the cells whose byte is not `Config.memFill`, by
rising address. `Memory.wf` in Machine/Ops.lean is the canonical form. -/
structure Memory where
  /-- `MEM_SIZE` of this instance. Log 1. -/
  size : Nat
  cells : List Host.Cell
  deriving DecidableEq, Repr

/-- A response `(RSTAT, RDATA)` (30_encoding.md R77). -/
structure Response where
  rstat : Code
  rdata : Word
  deriving DecidableEq, Repr

/-- What the host does at the block's ports (00_scope.md R7, 20_memory.md R63, 70_reset_and_hazards.md R230). Log 5. -/
inductive HostEvent where
  /-- Issue `(CW, OP)`; `during` are the host's writes to `MEM` made while the command is in flight, oldest first (R63). -/
  | command (cw : CmdWord) (op : Word) (during : List Host.Cell)
  /-- Write a byte of `MEM` between two commands (R63). -/
  | memWrite (a : Nat) (b : Byte)
  /-- Assert hardware reset between two command steps (R230). -/
  | hardReset
  /-- Assert hardware reset while the command `(CW, OP)` executes (R230). Log 8. -/
  | resetDuring (cw : CmdWord) (op : Word)
  deriving DecidableEq, Repr

/-- Why a step of the model stops. No command of the block stops it: the block's own errors are next states (60_exceptions.md
R213). -/
inductive Fault where
  /-- Raised by the step that takes a host event writing an address outside `MEM`, which the spec says does not exist
  (20_memory.md R51, R61). Safe: the model stops where a platform would do something of its own. Log 9. -/
  | hostWriteOutsideMem (a : Nat)
  deriving DecidableEq, Repr

/-- Why an instruction has no meaning. -/
inductive Refusal where
  /-- Raised by an arm of exec whose instruction has no meaning. No arm raises it. Safe. -/
  | notModelled (mnemonic : String)
  deriving DecidableEq, Repr

/-- Everything the spec gives the machine (10_state.md R21, R40, R43), `MEM`, the two ports, and the model's own `racing` and
`draws`. -/
structure State where
  /-- The configuration registers. -/
  cfg : CfgRegs
  /-- `CFG_VALID` (R36). -/
  cfgValid : Bool
  /-- The staging registers. -/
  stg : Staging
  /-- `PHASE` (R32). -/
  phase : Phase
  /-- `CRC_REG` (R31). -/
  crcReg : Word
  /-- `PREFINAL` (R33). -/
  prefinal : Word
  /-- `SYNDROME` (R34). -/
  syndrome : Word
  /-- `VSKIP` (R39). -/
  vskip : Bool
  /-- The fault fields. -/
  err : ErrRegs
  /-- `MEM`. -/
  mem : Memory
  /-- The response delivered last; `none` when the port is idle after reset (R77, R231). Log 6. -/
  response : Option Response
  /-- The host's events not taken yet, oldest first (70_reset_and_hazards.md R239). Log 5. -/
  inbox : List HostEvent
  /-- MODEL'S OWN: the host's writes to `MEM` while the present command is in flight (R63). Log 3. -/
  racing : List Host.Cell
  /-- MODEL'S OWN: how many free bytes have been drawn (R63). Log 3. -/
  draws : Nat
  deriving DecidableEq, Repr

/-- The configuration registers at reset (R231). -/
def CfgRegs.reset : CfgRegs := ⟨0, false, false, 0, 0, 0, 0, 0, 0⟩

/-- The staging registers at reset (R231). -/
def Staging.reset : Staging := ⟨0, false, false, 0, 0, 0⟩

/-- The fault fields at reset (R231). -/
def ErrRegs.reset : ErrRegs := ⟨false, .ok, 0, 0⟩

/-- The machine right after a power-up reset (R231): every register 0, the response port idle, nothing listed in `MEM` (log 2),
no host event pending (log 5), no free byte drawn (log 3). -/
def State.reset : State where
  cfg := CfgRegs.reset
  cfgValid := false
  stg := Staging.reset
  phase := .idle
  crcReg := 0
  prefinal := 0
  syndrome := 0
  vskip := false
  err := ErrRegs.reset
  mem := ⟨Config.memSize, []⟩
  response := none
  inbox := []
  racing := []
  draws := 0

end Sys2Proof.Machine
end

