-- ==== Sys2Proof/Machine/Ops.lean ====
section
/-! DEFINITION. The shared operations: `MEM`, responding, raising an error (60_exceptions.md R213), the checks of R211 in their
order, the reset of 70_reset_and_hazards.md R231, and reading a register by index (10_state.md R21). -/

namespace Sys2Proof.Machine

/-- What a command or a step answers. -/
abbrev Result := Host.Outcome State Fault Refusal

/-- Apply `f` to the next state, if there is one. -/
def onNext (f : State → State) : Result → Result
  | .next s => .next (f s)
  | .fault r => .fault r
  | .refused r => .refused r

/-! ## MEM (20_memory.md) -/

/-- The byte listed for an address, if one is. -/
def Memory.lookup : List Host.Cell → Nat → Option Byte
  | [], _ => none
  | (a, b) :: cells, x => if x = a then some b else Memory.lookup cells x

/-- `MemRead(a, 1)` (R52). It is asked only for addresses below `size` (R54), and has no side effect. -/
def Memory.read (m : Memory) (a : Nat) : Byte := (Memory.lookup m.cells a).getD Config.memFill

/-- List a byte in its place. -/
def Memory.put (a : Nat) (b : Byte) : List Host.Cell → List Host.Cell
  | [] => [(a, b)]
  | (x, y) :: cells =>
    if a < x then (a, b) :: (x, y) :: cells
    else if a = x then (a, b) :: cells
    else (x, y) :: Memory.put a b cells

/-- The host's write of one byte (R63); the block itself never writes `MEM` (R50). An address outside `MEM` holds nothing. -/
def Memory.write (m : Memory) (a : Nat) (b : Byte) : Memory :=
  if a < m.size then
    { m with cells := if b = Config.memFill then m.cells.filter (·.1 ≠ a) else Memory.put a b m.cells }
  else m

/-- The host's writes, oldest first. -/
def Memory.writeAll (m : Memory) (ws : List Host.Cell) : Memory := ws.foldl (fun m w => m.write w.1 w.2) m

/-- The canonical form: a legal `MEM_SIZE` (R6), addresses strictly rising and below it, no byte listed that an unlisted address
reads as. -/
abbrev Memory.wf (m : Memory) : Prop :=
  1 ≤ m.size ∧ m.size ≤ 2 ^ 32 ∧ m.cells.Pairwise (fun p q => p.1 < q.1) ∧
    (∀ p ∈ m.cells, p.1 < m.size) ∧ ∀ p ∈ m.cells, p.2 ≠ Config.memFill

/-! ## Responding and raising -/

/-- The 4-bit code (60_exceptions.md R200). -/
def Code.bits : Code → BitVec 4
  | .ok => 0
  | .illegal => 1
  | .config => 2
  | .cfgLocked => 3
  | .notConfigured => 4
  | .phase => 5
  | .range => 6
  | .arg => 7
  | .defect => 8
  | .faulted => 9

/-- `PHASE` as 2 bits (10_state.md R32). -/
def Phase.bits : Phase → BitVec 2
  | .idle => 0
  | .pre => 1
  | .final => 2

/-- `respond(code, data)` (00_scope.md R11, 30_encoding.md R77). Log 6. -/
def respond (code : Code) (data : Word) (s : State) : State := { s with response := some ⟨code, data⟩ }

/-- Record the first error: nothing else is saved (60_exceptions.md R213, R216). -/
def recordError (cw : CmdWord) (e : Code) (info : Word) (s : State) : State :=
  if e ≠ .faulted ∧ s.err.faulted = false then { s with err := ⟨true, e, cw, info⟩ } else s

/-- `raise E(info)` in the command whose word is `cw` (60_exceptions.md R213, R217). There is no handler and nothing to return to:
the only way out of a fault is a reset (R215). -/
def raise (cw : CmdWord) (e : Code) (info : Word) (s : State) : State :=
  respond e (if e = .defect then info else 0) (recordError cw e info s)

/-! ## The checks (60_exceptions.md R211) -/

/-- A check passes, or names its error and information word (R214). -/
abbrev Check := Option (Code × Word)

/-- Step 2: R209. -/
def checkFaulted (s : State) : Check := if s.err.faulted then some (.faulted, 0) else none

/-- Step 3a: R203. -/
def checkUnlocked (s : State) : Check := if s.cfgValid then some (.cfgLocked, 0) else none

/-- Step 3b: R202, with the rejected width (R214). -/
def checkStagedWidth (s : State) : Check :=
  if s.stg.width.toNat < 1 ∨ 64 < s.stg.width.toNat then some (.config, s.stg.width.setWidth 64) else none

/-- Step 4a: R204. -/
def checkConfigured (s : State) : Check := if s.cfgValid then none else some (.notConfigured, 0)

/-- Step 4b: R205, with the phase the command met (R214). -/
def checkPhase (p : Phase) (s : State) : Check :=
  if s.phase = p then none else some (.phase, s.phase.bits.setWidth 64)

/-- Step 4c: R206 and 20_memory.md R54, with the first byte address outside `MEM` that the range covers (R214). The sum does not
wrap. -/
def checkRange (base len : BitVec 32) (s : State) : Check :=
  if 0 < len.toNat ∧ s.mem.size < base.toNat + len.toNat then
    some (.range, BitVec.ofNat 64 (max base.toNat s.mem.size))
  else none

/-- Step 5 for `REFLECT`: R207, with the rejected value. -/
def checkReflectWidth (n : BitVec 7) : Check :=
  if n.toNat < 1 ∨ 64 < n.toNat then some (.arg, n.setWidth 64) else none

/-- Step 5 for `READ`: R207, with the rejected index. -/
def checkReadIndex (b : Byte) : Check := if 12 < b.toNat then some (.arg, b.setWidth 64) else none

/-- The first check that fails (R211). -/
def firstError : List Check → Check
  | [] => none
  | some e :: _ => some e
  | none :: checks => firstError checks

/-- A command: the first check that fails is raised and nothing else happens (R212); if none fails, the effect (R211 step 6). -/
def runChecked (cw : CmdWord) (checks : List Check) (effect : State → State) (s : State) : Result :=
  match firstError checks with
  | some (e, info) => .next (raise cw e info s)
  | none => .next (effect s)

/-! ## Reset -/

/-- The reset of 70_reset_and_hazards.md R231: every register takes its reset value and the response port is idle. `MEM` is not
written. What the host has in flight or pending is not the block's state (log 7), and free bytes already drawn stay drawn. -/
def resetBlock (s : State) : State :=
  { State.reset with mem := s.mem, inbox := s.inbox, racing := s.racing, draws := s.draws }

end Sys2Proof.Machine
end

