-- ==== Sys2Proof/Machine/Flags.lean ====
section
/-! DEFINITION. The fields derived from `WIDTH` (10_state.md R26 to R28), the packed views `STATUS` (R35) and `CFG` (R30), and the
skip flag of the verifier (43_syndrome_verify.md R161). -/

namespace Sys2Proof.Machine

/-- `mask(w) = 2^w - 1` (00_scope.md R10, 10_state.md R26); all 64 bits at `w = 64`. -/
def mask (w : Nat) : Word := BitVec.ofNat 64 (2 ^ w - 1)

/-- `1 << (w - 1)` (R27). -/
def msbMask (w : Nat) : Word := BitVec.ofNat 64 (2 ^ (w - 1))

/-- `max(0, 8 - w)` (R28); natural subtraction stops at 0. -/
def subByteShift (w : Nat) : BitVec 3 := BitVec.ofNat 3 (8 - w)

/-- `STATUS` (R35). -/
def statusWord (s : State) : Word :=
  0#55 ++ BitVec.ofBool s.vskip ++ s.err.code.bits ++ BitVec.ofBool s.err.faulted ++ s.phase.bits ++ BitVec.ofBool s.cfgValid

/-- `CFG` (R30). -/
def cfgWord (c : CfgRegs) : Word :=
  0#54 ++ BitVec.ofBool c.reflectOut ++ BitVec.ofBool c.reflectIn ++ 0#1 ++ c.width

/-- `skip_verify()` (43_syndrome_verify.md R161). -/
def skipVerify (c : CfgRegs) : Bool := c.width.toNat % 8 != 0

end Sys2Proof.Machine
end

