-- ==== Sys2Proof/Machine/Operands.lean ====
section
/-! DEFINITION. The operand forms: bit reflection (42_bit_reflect.md R150), the bytes of `MEM` an `UPDATE` reads (20_memory.md R53,
R63), the bytes the verifier splits a checksum into (R56), and the register a `READ` index names (10_state.md R21). -/

namespace Sys2Proof.Machine

/-- Bits `0 .. k-1` of `reflect(v, n)`: bit `i` of the result is bit `n-1-i` of `v`. -/
def reflectBits (v : Word) (n : Nat) : Nat → Word
  | 0 => 0
  | k + 1 => reflectBits v n k ||| ((BitVec.ofBool (v.getLsbD (n - 1 - k))).setWidth 64 <<< k)

/-- `reflect(v, n)`, for `1 <= n <= 64` (R150). -/
def reflect (v : Word) (n : Nat) : Word := reflectBits v n n

/-- `reflect(c, 8)` on a byte (42_bit_reflect.md R153). -/
def reflectByte (c : Byte) : Byte := (reflect (c.setWidth 64) 8).setWidth 8

/-- Whether the host writes a byte of `[BASE, BASE+LEN)` while the `UPDATE` is in flight (20_memory.md R63, R235). -/
def rangeRaced (base len : BitVec 32) (s : State) : Bool :=
  s.racing.any fun w => base.toNat ≤ w.1 && w.1 < base.toNat + len.toNat

/-- The `k`-th byte an `UPDATE` reads: `MEM[BASE + k]`, or a free byte when the range is raced (R53, R63). Log 3. -/
def updateByte (base len : BitVec 32) (s : State) (k : Nat) : Byte :=
  if rangeRaced base len s then Config.freeByte (s.draws + k) else s.mem.read (base.toNat + k)

/-- The byte sequence of an `UPDATE`, in ascending address order (R53). -/
def updateBytes (base len : BitVec 32) (s : State) : List Byte :=
  (List.range len.toNat).map (updateByte base len s)

/-- How many free bytes an `UPDATE` draws. -/
def updateDraws (base len : BitVec 32) (s : State) : Nat := if rangeRaced base len s then len.toNat else 0

/-- The bytes of a `WIDTH`-bit checksum, most-significant first (20_memory.md R56, 43_syndrome_verify.md R163). -/
def checksumBytes (width : Nat) (u : Word) : List Byte :=
  (List.range (width / 8)).map fun i => (u >>> (width - 8 * i - 8)).setWidth 8

/-- The register with a `READ` index, zero extended (10_state.md R21). -/
def readRegister (s : State) : Nat → Word
  | 0 => statusWord s
  | 1 => cfgWord s.cfg
  | 2 => s.cfg.poly
  | 3 => s.cfg.xorIn
  | 4 => s.cfg.xorOut
  | 5 => s.cfg.crcMask
  | 6 => s.cfg.msbMask
  | 7 => s.cfg.shift.setWidth 64
  | 8 => s.crcReg
  | 9 => s.prefinal
  | 10 => s.syndrome
  | 11 => s.err.cw.setWidth 64
  | 12 => s.err.info
  | _ => 0

end Sys2Proof.Machine
end

