-- ==== Sys2Proof/Machine/Configuration.lean ====
section
/-! DEFINITION. The configuration commands (40_configuration.md). -/

namespace Sys2Proof.Machine

/-- The checks of every configuration command, in order (60_exceptions.md R211 steps 2 and 3a). -/
def cfgChecks (s : State) : List Check := [checkFaulted s, checkUnlocked s]

/-- `CFGW` (R101). -/
def execCfgw (n : BitVec 7) (ri ro : Bool) (s : State) : Result :=
  runChecked (encodeCw (.cfgw n ri ro)) (cfgChecks s)
    (fun s => respond .ok 0 { s with stg := { s.stg with width := n, ri := ri, ro := ro } }) s

/-- `CFGPOLY` (R102). -/
def execCfgpoly (op : Word) (s : State) : Result :=
  runChecked (encodeCw (.cfgpoly op)) (cfgChecks s)
    (fun s => respond .ok 0 { s with stg := { s.stg with poly := op } }) s

/-- `CFGXIN` (R103). -/
def execCfgxin (op : Word) (s : State) : Result :=
  runChecked (encodeCw (.cfgxin op)) (cfgChecks s)
    (fun s => respond .ok 0 { s with stg := { s.stg with xin := op } }) s

/-- `CFGXOUT` (R104). -/
def execCfgxout (op : Word) (s : State) : Result :=
  runChecked (encodeCw (.cfgxout op)) (cfgChecks s)
    (fun s => respond .ok 0 { s with stg := { s.stg with xout := op } }) s

/-- The record a commit stores: masked to the width, with its derived fields (R105). -/
def commitRegs (g : Staging) : CfgRegs where
  width := g.width
  crcMask := mask g.width.toNat
  msbMask := msbMask g.width.toNat
  shift := subByteShift g.width.toNat
  poly := g.poly &&& mask g.width.toNat
  xorIn := g.xin &&& mask g.width.toNat
  xorOut := g.xout &&& mask g.width.toNat
  reflectIn := g.ri
  reflectOut := g.ro

/-- `CFGCOMMIT` (R105). -/
def execCfgcommit (s : State) : Result :=
  runChecked (encodeCw .cfgcommit) (cfgChecks s ++ [checkStagedWidth s])
    (fun s => respond .ok 0 { s with cfg := commitRegs s.stg, cfgValid := true }) s

end Sys2Proof.Machine
end

