-- ==== Sys2Proof/Machine/Control.lean ====
section
/-! DEFINITION. The control commands (44_control.md). -/

namespace Sys2Proof.Machine

/-- `READ` (R180): no fault check, every phase. -/
def execRead (b : Byte) (s : State) : Result :=
  runChecked (encodeCw (.read b)) [checkReadIndex b] (fun s => respond .ok (readRegister s b.toNat) s) s

/-- `SRESET` (R182): executes in every state, and responds after it takes effect (70_reset_and_hazards.md R230). -/
def execSreset (s : State) : Result := .next (respond .ok 0 (resetBlock s))

end Sys2Proof.Machine
end

