-- ==== Sys2Proof/Machine/Engine.lean ====
section
/-! DEFINITION. The CRC engine core (41_crc_engine.md): the reference fold, the value functions, and the four engine commands. -/

namespace Sys2Proof.Machine

/-! ## The reference fold -/

/-- `fold_bit(r, b)` (R120): shift left one place, drop bit `WIDTH`, and add `POLY` when the top bit differs from the message
bit. -/
def foldBit (c : CfgRegs) (r : Word) (b : Bool) : Word :=
  let top := r.getLsbD (c.width.toNat - 1) ^^ b
  let shifted := (r <<< 1) &&& c.crcMask
  if top then shifted ^^^ c.poly else shifted

/-- The bits of a byte, most-significant first. -/
def bitsMsbFirst (d : Byte) : List Bool := (List.range 8).map fun i => d.getLsbD (7 - i)

/-- The byte as it enters the fold: reflected when `REFLECT_IN = 1` (R121). -/
def inputByte (c : CfgRegs) (d : Byte) : Byte := if c.reflectIn then reflectByte d else d

/-- `fold_byte(r, c)` (R121). -/
def foldByte (c : CfgRegs) (r : Word) (d : Byte) : Word := (bitsMsbFirst (inputByte c d)).foldl (foldBit c) r

/-- `fold(r, s)` (R122). -/
def fold (c : CfgRegs) (r : Word) (bytes : List Byte) : Word := bytes.foldl (foldByte c) r

/-- Streaming: one `fold` per chunk of a message, in order (R131). It equals `fold` over the whole message, whatever the chunks;
each `UPDATE` and `UPDATEB` folds its chunk into `CRC_REG`. -/
def foldChunks (c : CfgRegs) (r : Word) (chunks : List (List Byte)) : Word := chunks.foldl (fold c) r

/-! ## The byte-wide formulation for `WIDTH < 8` (R123), equal to `foldByte` and not used by any command -/

/-- One turn of R123's loop on the 8-bit working register. -/
def foldBitW8 (c : CfgRegs) (w : Byte) : Byte :=
  if w.getLsbD 7 then (w <<< 1) ^^^ (c.poly <<< c.shift.toNat).setWidth 8 else w <<< 1

/-- `fold_byte_w8(r, c)` (R123). -/
def foldByteW8 (c : CfgRegs) (r : Word) (d : Byte) : Word :=
  ((foldBitW8 c)^[8] ((r <<< c.shift.toNat).setWidth 8 ^^^ inputByte c d)).setWidth 64 >>> c.shift.toNat

/-! ## Value functions -/

/-- `init_value()` (R130), the literal contract of 90_conflicts.md C1. -/
def initValue (c : CfgRegs) : Word := if c.reflectIn then reflect c.xorIn c.width.toNat else c.xorIn

/-- `finalize_value(r)` (R129). -/
def finalizeValue (c : CfgRegs) (r : Word) : Word :=
  ((if c.reflectOut then reflect r c.width.toNat else r) ^^^ c.xorOut) &&& c.crcMask

/-! ## Commands -/

/-- `INIT` (R125): accepted in every phase. -/
def execInit (s : State) : Result :=
  runChecked (encodeCw .init) [checkFaulted s, checkConfigured s]
    (fun s => respond .ok (initValue s.cfg) { s with crcReg := initValue s.cfg, phase := .pre }) s

/-- The checks of a command that needs a configuration and a phase (60_exceptions.md R211 steps 2, 4a, 4b). -/
def engineChecks (p : Phase) (s : State) : List Check := [checkFaulted s, checkConfigured s, checkPhase p s]

/-- The effect of `UPDATE`: fold the bytes read. -/
def updateEffect (base len : BitVec 32) (s : State) : State :=
  let r := fold s.cfg s.crcReg (updateBytes base len s)
  respond .ok r { s with crcReg := r, draws := s.draws + updateDraws base len s }

/-- `UPDATE` (R126). -/
def execUpdate (base len : BitVec 32) (s : State) : Result :=
  runChecked (encodeCw (.update base len)) (engineChecks .pre s ++ [checkRange base len s]) (updateEffect base len) s

/-- `UPDATEB` (R127). -/
def execUpdateb (b : Byte) (s : State) : Result :=
  runChecked (encodeCw (.updateb b)) (engineChecks .pre s)
    (fun s => respond .ok (foldByte s.cfg s.crcReg b) { s with crcReg := foldByte s.cfg s.crcReg b }) s

/-- `FINAL` (R128): no zero bits are folded. -/
def execFinal (s : State) : Result :=
  runChecked (encodeCw .final) (engineChecks .pre s)
    (fun s => respond .ok (finalizeValue s.cfg s.crcReg)
      { s with prefinal := s.crcReg, crcReg := finalizeValue s.cfg s.crcReg, phase := .final }) s

end Sys2Proof.Machine
end

