-- ==== Sys2Proof/Machine/Reflect.lean ====
section
/-! DEFINITION. The bit reflection command (42_bit_reflect.md). -/

namespace Sys2Proof.Machine

/-- `REFLECT` (R152): reads no configuration and no phase, writes no register. -/
def execReflect (n : BitVec 7) (op : Word) (s : State) : Result :=
  runChecked (encodeCw (.reflect n op)) [checkFaulted s, checkReflectWidth n]
    (respond .ok (reflect op n.toNat)) s

end Sys2Proof.Machine
end

