-- ==== Sys2Proof/Machine/Verify.lean ====
section
/-! DEFINITION. The syndrome verifier (43_syndrome_verify.md). -/

namespace Sys2Proof.Machine

/-- `unfinalize(c)` (R162). -/
def unfinalize (c : CfgRegs) (checksum : Word) : Word :=
  let u := if c.xorOut ≠ 0 then checksum ^^^ c.xorOut else checksum
  if c.reflectOut then reflect u c.width.toNat else u

/-- `feed_back(pre, u)` (R163): forwards, through the same `fold_byte` as `UPDATE`, each byte reflected first when
`REFLECT_IN = 1`. -/
def feedBack (c : CfgRegs) (pre u : Word) : Word := fold c pre ((checksumBytes c.width.toNat u).map (inputByte c))

/-- `syndrome(pre, c)` (R160): the syndrome, neither reflected nor XORed (R164), and the skip flag. -/
def syndrome (c : CfgRegs) (pre checksum : Word) : Word × Bool :=
  if skipVerify c then (0, true) else (feedBack c pre (unfinalize c checksum), false)

/-- The effect shared by the two commands: `SYNDROME` and `VSKIP` are written, and kept when `ERR_DEFECT` is raised (R165,
60_exceptions.md R208, R212). -/
def verifyEffect (cw : CmdWord) (checksum : Word) (s : State) : State :=
  let (syn, skip) := syndrome s.cfg s.prefinal checksum
  let written := { s with syndrome := syn, vskip := skip }
  if syn ≠ 0 then raise cw .defect syn written else respond .ok 0 written

/-- `VERIFY` (R165): the block's own latest checksum. -/
def execVerify (s : State) : Result :=
  runChecked (encodeCw .verify) (engineChecks .final s) (verifyEffect (encodeCw .verify) s.crcReg) s

/-- `VERIFYI` (R166): a checksum the host supplies. -/
def execVerifyi (op : Word) (s : State) : Result :=
  runChecked (encodeCw (.verifyi op)) (engineChecks .final s) (verifyEffect (encodeCw (.verifyi op)) op) s

end Sys2Proof.Machine
end

