-- ==== Sys2Proof/Machine/Dispatch.lean ====
section
/-! DEFINITION. One arm per command of 30_encoding.md R74. -/

namespace Sys2Proof.Machine

def exec (i : Instr) (s : State) : Host.Outcome State Fault Refusal :=
  match i with
  | .cfgw n ri ro => Sys2Proof.Machine.execCfgw n ri ro s
  | .cfgpoly op => Sys2Proof.Machine.execCfgpoly op s
  | .cfgxin op => Sys2Proof.Machine.execCfgxin op s
  | .cfgxout op => Sys2Proof.Machine.execCfgxout op s
  | .cfgcommit => Sys2Proof.Machine.execCfgcommit s
  | .init => Sys2Proof.Machine.execInit s
  | .update base len => Sys2Proof.Machine.execUpdate base len s
  | .updateb b => Sys2Proof.Machine.execUpdateb b s
  | .final => Sys2Proof.Machine.execFinal s
  | .reflect n op => Sys2Proof.Machine.execReflect n op s
  | .verify => Sys2Proof.Machine.execVerify s
  | .verifyi op => Sys2Proof.Machine.execVerifyi op s
  | .read b => Sys2Proof.Machine.execRead b s
  | .sreset => Sys2Proof.Machine.execSreset s

end Sys2Proof.Machine
end

