-- ==== Sys2Proof/Machine/Port.lean ====
section
/-! DEFINITION. The two ports: what the block does with one event of the host (00_scope.md R7, 20_memory.md R62, R63,
70_reset_and_hazards.md R230). -/

namespace Sys2Proof.Machine

/-- Decode a command and execute it; an illegal word raises `ERR_ILLEGAL` before any other check (60_exceptions.md R201, R211
step 1). -/
def runWord (cw : CmdWord) (op : Word) (s : State) : Result :=
  match decode cw op with
  | .ok i => exec i s
  | .error _ => .next (raise cw .illegal 0 s)

/-- The response is delivered: the host's writes made in flight are in `MEM`. Log 4. -/
def settle (s : State) : State := { s with mem := s.mem.writeAll s.racing, racing := [] }

/-- The first write outside `MEM`, if there is one. -/
def writeOutside (m : Memory) (ws : List Host.Cell) : Option Host.Cell := ws.find? fun w => m.size ≤ w.1

/-- One command step, from accepting the command to delivering its response (R7, R62). -/
def commandStep (cw : CmdWord) (op : Word) (during : List Host.Cell) (s : State) : Result :=
  match writeOutside s.mem during with
  | some w => .fault (.hostWriteOutsideMem w.1)
  | none => onNext settle (runWord cw op { s with racing := during })

/-- One write of the host between two commands. -/
def hostWriteStep (a : Nat) (b : Byte) (s : State) : Result :=
  if a < s.mem.size then .next { s with mem := s.mem.write a b } else .fault (.hostWriteOutsideMem a)

/-- The event the step takes. A hardware reset gives no response; one asserted while a command executes discards it without
effect (R230). -/
def eventStep : HostEvent → State → Result
  | .command cw op during, s => commandStep cw op during s
  | .memWrite a b, s => hostWriteStep a b s
  | .hardReset, s => .next (resetBlock s)
  | .resetDuring _ _, s => .next (resetBlock s)

/-- One step: the oldest event of the host, or, with none, waiting (60_exceptions.md R225). -/
def portStep (s : State) : Result :=
  match s.inbox with
  | [] => .next s
  | e :: rest => eventStep e { s with inbox := rest }

end Sys2Proof.Machine
end

