-- ==== Sys2Proof/Machine/Step.lean ====
section
/-! DEFINITION. The step of the machine, and placing a command where it takes its next one. -/

namespace Sys2Proof.Machine

/-- One step of the machine (00_scope.md R7, R8). -/
def step (s : State) : Host.Outcome State Fault Refusal := portStep s

/-- The host issues the command of a table word as the oldest event, with no write to `MEM` in flight. Log 5. -/
def State.withFetchWord (s : State) (nbits w : Nat) : State :=
  { s with inbox := .command (tableCw nbits w) (tableOp nbits w) [] :: s.inbox }

end Sys2Proof.Machine
end

