-- ==== Sys2Proof/Machine/Assembler.lean ====
section
/-! DEFINITION. The assembler of 30_encoding.md R78 and the pseudo-instructions of R79: a tool of the host, which turns a line of
text into the commands it issues. No command of the block uses it. Log 15. -/

namespace Sys2Proof.Machine

/-! ## Lines -/

/-- One line, with its operands as numbers. -/
inductive AsmLine where
  | cfgw (w ri ro : Nat)
  | cfgpoly (v : Nat)
  | cfgxin (v : Nat)
  | cfgxout (v : Nat)
  | cfgcommit
  | init
  | update (base len : Nat)
  | updateb (byte : Nat)
  | final
  | reflect (v n : Nat)
  | verify
  | verifyi (c : Nat)
  | read (idx : Nat)
  | sreset
  /-- Pseudo-instruction (R79). -/
  | configure (w poly xin xout ri ro : Nat)
  /-- Pseudo-instruction (R79). -/
  | crc (base len : Nat)
  /-- Pseudo-instruction (R79): one `updateb` for each byte of an ASCII string. -/
  | updatestr (bytes : List Nat)
  deriving DecidableEq, Repr

/-- A number fits a field of so many bits. -/
def fits (bits v : Nat) : Bool := v < 2 ^ bits

/-- "An operand that does not fit its field is an assembly error" (R78). -/
def AsmLine.wf : AsmLine → Bool
  | .cfgw w ri ro => fits 7 w && fits 1 ri && fits 1 ro
  | .cfgpoly v => fits 64 v
  | .cfgxin v => fits 64 v
  | .cfgxout v => fits 64 v
  | .cfgcommit => true
  | .init => true
  | .update base len => fits 32 base && fits 32 len
  | .updateb byte => fits 8 byte
  | .final => true
  | .reflect v n => fits 64 v && fits 7 n
  | .verify => true
  | .verifyi c => fits 64 c
  | .read idx => fits 8 idx
  | .sreset => true
  | .configure w poly xin xout ri ro =>
    fits 7 w && fits 64 poly && fits 64 xin && fits 64 xout && fits 1 ri && fits 1 ro
  | .crc base len => fits 32 base && fits 32 len
  | .updatestr bytes => bytes.all (fits 7)

/-- The numbers `CW` and `OP` of R78's table. -/
def word (cw op : Nat) : CmdWord × Word := (BitVec.ofNat 32 cw, BitVec.ofNat 64 op)

/-- The commands of a line whose operands fit (R78, R79). -/
def AsmLine.words : AsmLine → List (CmdWord × Word)
  | .cfgw w ri ro => [word (0x01 + (w <<< 8) + (ri <<< 24) + (ro <<< 25)) 0]
  | .cfgpoly v => [word 0x02 v]
  | .cfgxin v => [word 0x03 v]
  | .cfgxout v => [word 0x04 v]
  | .cfgcommit => [word 0x05 0]
  | .init => [word 0x10 0]
  | .update base len => [word 0x11 ((len <<< 32) + base)]
  | .updateb byte => [word (0x12 + (byte <<< 16)) 0]
  | .final => [word 0x13 0]
  | .reflect v n => [word (0x20 + (n <<< 8)) v]
  | .verify => [word 0x30 0]
  | .verifyi c => [word 0x31 c]
  | .read idx => [word (0x40 + (idx <<< 16)) 0]
  | .sreset => [word 0xFF 0]
  | .configure w poly xin xout ri ro =>
    [word (0x01 + (w <<< 8) + (ri <<< 24) + (ro <<< 25)) 0, word 0x02 poly, word 0x03 xin, word 0x04 xout, word 0x05 0]
  | .crc base len => [word 0x10 0, word 0x11 ((len <<< 32) + base), word 0x13 0]
  | .updatestr bytes => bytes.map fun byte => word (0x12 + (byte <<< 16)) 0

/-- The commands of a line, or no command where an operand does not fit (R78). -/
def AsmLine.assemble (l : AsmLine) : Option (List (CmdWord × Word)) := if l.wf then some l.words else none

/-! ## Text: lower-case mnemonic, comma-separated operands, decimal or `0x` hexadecimal numbers, `;` before a comment -/

def quoteChar : Char := Char.ofNat 34

/-- The value of a digit in a base. -/
def digitValue (base : Nat) (c : Char) : Option Nat :=
  let n := c.toNat
  let d := if 48 ≤ n ∧ n ≤ 57 then n - 48 else if 97 ≤ n ∧ n ≤ 102 then n - 87 else if 65 ≤ n ∧ n ≤ 70 then n - 55 else base
  if d < base then some d else none

/-- Digits in a base, after the value read so far. -/
def digitsValue (base : Nat) : Nat → List Char → Option Nat
  | acc, [] => some acc
  | acc, c :: cs => (digitValue base c).bind fun d => digitsValue base (acc * base + d) cs

/-- A decimal or `0x` hexadecimal number. -/
def numberValue : List Char → Option Nat
  | [] => none
  | ['0', 'x'] => none
  | '0' :: 'x' :: cs => digitsValue 16 0 cs
  | cs => digitsValue 10 0 cs

/-- Spaces and tabs off both ends. -/
def trimSpaces (cs : List Char) : List Char :=
  let off := List.dropWhile fun c : Char => c == ' ' || c.toNat == 9
  (off (off cs).reverse).reverse

/-- The pieces between commas. -/
def splitCommas : List Char → List (List Char)
  | [] => [[]]
  | c :: cs =>
    if c == ',' then [] :: splitCommas cs
    else match splitCommas cs with
      | p :: ps => (c :: p) :: ps
      | [] => [[c]]

/-- The register names of `read`, by `READ` index (10_state.md R21). -/
def registerNames : List String :=
  ["status", "cfg", "poly", "xor_in", "xor_out", "crc_mask", "msb_mask", "shift", "crc_reg", "prefinal", "syndrome", "err_cw",
   "err_info"]

/-- The operand of `read`: an index or a register's name. -/
def registerIndex (cs : List Char) : Option Nat :=
  match registerNames.findIdx? fun n => String.ofList cs == n with
  | some i => some i
  | none => numberValue cs

/-- The operands of a line; none at all where only spaces follow the mnemonic. -/
def operandTexts (cs : List Char) : List (List Char) :=
  if trimSpaces cs = [] then [] else (splitCommas cs).map trimSpaces

/-- A line from its mnemonic and the values of its operands. -/
def lineOf (mnemonic : String) (values : List Nat) : Option AsmLine :=
  match mnemonic, values with
  | "cfgw", [w, ri, ro] => some (.cfgw w ri ro)
  | "cfgpoly", [v] => some (.cfgpoly v)
  | "cfgxin", [v] => some (.cfgxin v)
  | "cfgxout", [v] => some (.cfgxout v)
  | "cfgcommit", [] => some .cfgcommit
  | "init", [] => some .init
  | "update", [base, len] => some (.update base len)
  | "updateb", [byte] => some (.updateb byte)
  | "final", [] => some .final
  | "reflect", [v, n] => some (.reflect v n)
  | "verify", [] => some .verify
  | "verifyi", [c] => some (.verifyi c)
  | "read", [idx] => some (.read idx)
  | "sreset", [] => some .sreset
  | "configure", [w, poly, xin, xout, ri, ro] => some (.configure w poly xin xout ri ro)
  | "crc", [base, len] => some (.crc base len)
  | _, _ => none

/-- The string of `updatestr`: what stands between two double quotes, with nothing but spaces, tabs and a comment after it.
DESIGN CHOICE (log 15): a `;` between the quotes is a byte of the string (R79) and starts no comment (R78), since the spec does
not say which wins; a comma is a byte too, no character is an escape, and text after the string gives no command. -/
def quotedBytes (cs : List Char) : Option (List Nat) :=
  match trimSpaces cs with
  | q :: body =>
    let inside := body.takeWhile (· != quoteChar)
    let after := trimSpaces ((body.drop (inside.length + 1)).takeWhile (· != ';'))
    if q = quoteChar ∧ inside.length < body.length ∧ after = [] then some (inside.map Char.toNat) else none
  | [] => none

/-- The commands of one line of text; a line with no mnemonic gives none. -/
def assembleText (text : List Char) : Option (List (CmdWord × Word)) :=
  let start := text.dropWhile fun c : Char => c == ' ' || c.toNat == 9
  let mnemonic := start.takeWhile fun c : Char => c != ' ' && c.toNat != 9 && c != ';'
  let rest := start.drop mnemonic.length
  if mnemonic = [] then some []
  else if String.ofList mnemonic == "updatestr" then (quotedBytes rest).bind fun bytes => (AsmLine.updatestr bytes).assemble
  else
    let operands := operandTexts (rest.takeWhile (· != ';'))
    let value := if String.ofList mnemonic == "read" then registerIndex else numberValue
    (operands.mapM value).bind fun values => (lineOf (String.ofList mnemonic) values).bind AsmLine.assemble

end Sys2Proof.Machine
end

