-- ==== Sys2Proof/Safety.lean ====
section
/-! DEFINITION. The invariant of the block: what holds at reset and after every step. -/

namespace Sys2Proof

open Machine

/-- A committed record: a legal width, the derived fields that agree with it, and every field masked (10_state.md R22 to R29,
40_configuration.md R106, R109). -/
structure CfgLegal (c : CfgRegs) : Prop where
  width_pos : 1 ≤ c.width.toNat
  width_le : c.width.toNat ≤ 64
  crcMask : c.crcMask = mask c.width.toNat
  msbMask : c.msbMask = msbMask c.width.toNat
  shift : c.shift = subByteShift c.width.toNat
  poly : c.poly &&& c.crcMask = c.poly
  xorIn : c.xorIn &&& c.crcMask = c.xorIn
  xorOut : c.xorOut &&& c.crcMask = c.xorOut

/-- The block's invariant. -/
structure Inv (s : State) : Prop where
  /-- R109. -/
  committed : s.cfgValid = true → CfgLegal s.cfg
  /-- 10_state.md R36: the configuration registers hold their reset values; and no engine command has run. -/
  uncommitted : s.cfgValid = false → s.cfg = CfgRegs.reset ∧ s.phase = .idle
  /-- R32: no register has been produced since reset. -/
  idle : s.phase = .idle → s.crcReg = 0 ∧ s.prefinal = 0 ∧ s.syndrome = 0 ∧ s.vskip = false
  /-- R31, R33, R34: below `2^WIDTH`. -/
  crcReg_masked : s.crcReg &&& s.cfg.crcMask = s.crcReg
  prefinal_masked : s.prefinal &&& s.cfg.crcMask = s.prefinal
  syndrome_masked : s.syndrome &&& s.cfg.crcMask = s.syndrome
  /-- 41_crc_engine.md R128: in phase FINAL the two captures belong together. -/
  final_pair : s.phase = .final → s.crcReg = finalizeValue s.cfg s.prefinal
  /-- R39. -/
  vskip_width : s.vskip = true → s.cfg.width.toNat % 8 ≠ 0
  /-- 43_syndrome_verify.md R169: a nonzero syndrome is the recorded defect. -/
  defect : s.syndrome ≠ 0 → s.err.code = .defect ∧ s.err.info = s.syndrome
  /-- R37, R38: nothing is recorded before the first error. -/
  unfaulted : s.err.faulted = false → s.err = ErrRegs.reset
  /-- R200: a recorded error is one that is recorded. -/
  faulted : s.err.faulted = true → s.err.code ≠ .ok ∧ s.err.code ≠ .faulted
  /-- 20_memory.md R51. -/
  mem : s.mem.wf
  /-- Between steps no host write is in flight. -/
  quiet : s.racing = []

end Sys2Proof
end

