-- ==== Sys2Proof/Certificates/Slice0/Obligations.lean ====
section
/-! DEFINITION. The statements for the provers. `R<n>` is a numbered rule of spec/. -/

open Sys2Proof Sys2Proof.Machine

namespace Sys2Proof.Statements

/-! ## Words the statements share -/

/-- The next state when a command raises error `e` as the block's FIRST error: the fault fields are recorded, the response is
`(e, 0)`, and nothing else changes (R212, R213, R217; `ERR_DEFECT` is not of this form). -/
def Raises (i : Instr) (s : State) (e : Code) (info : Word) : Prop :=
  exec i s = .next { s with err := ⟨true, e, encodeCw i, info⟩, response := some ⟨e, 0⟩ }

/-- The next state when a faulted block refuses a command: only the response (R209). -/
def RefusesFaulted (i : Instr) (s : State) : Prop :=
  exec i s = .next { s with response := some ⟨.faulted, 0⟩ }

/-- Not faulted and configured, in phase `p`. -/
abbrev Ready (p : Phase) (s : State) : Prop := s.err.faulted = false ∧ s.cfgValid = true ∧ s.phase = p

/-- The host writes some byte of `[base, base+len)` while the command is in flight (R63). -/
abbrev RacesRange (s : State) (base len : Nat) : Prop := ∃ w ∈ s.racing, base ≤ w.1 ∧ w.1 < base + len

/-- R74's table: opcode, mask, match. -/
def opcodeMap : List (Byte × CmdWord × CmdWord) :=
  [(0x01, 0xFCFF80FF, 0x00000001), (0x02, 0xFFFFFFFF, 0x00000002), (0x03, 0xFFFFFFFF, 0x00000003),
   (0x04, 0xFFFFFFFF, 0x00000004), (0x05, 0xFFFFFFFF, 0x00000005), (0x10, 0xFFFFFFFF, 0x00000010),
   (0x11, 0xFFFFFFFF, 0x00000011), (0x12, 0xFF00FFFF, 0x00000012), (0x13, 0xFFFFFFFF, 0x00000013),
   (0x20, 0xFFFF80FF, 0x00000020), (0x30, 0xFFFFFFFF, 0x00000030), (0x31, 0xFFFFFFFF, 0x00000031),
   (0x40, 0xFF00FFFF, 0x00000040), (0xFF, 0xFFFFFFFF, 0x000000FF)]

/-- R75's unassigned opcodes. -/
abbrev Unassigned (opc : Nat) : Prop :=
  opc = 0x00 ∨ 0x06 ≤ opc ∧ opc ≤ 0x0F ∨ 0x14 ≤ opc ∧ opc ≤ 0x1F ∨ 0x21 ≤ opc ∧ opc ≤ 0x2F ∨ 0x32 ≤ opc ∧ opc ≤ 0x3F ∨
    0x41 ≤ opc ∧ opc ≤ 0xFE

/-- The commands that read `OP` (R72), by opcode. -/
def readsOperand (opc : Byte) : Bool := [0x02, 0x03, 0x04, 0x11, 0x20, 0x31].contains opc

/-- The commands that an error of the configuration rules can meet: R203. -/
def IsConfigCommand : Instr → Prop
  | .cfgw _ _ _ => True
  | .cfgpoly _ => True
  | .cfgxin _ => True
  | .cfgxout _ => True
  | .cfgcommit => True
  | _ => False

/-- The engine and verifier commands: R204. -/
def IsEngineCommand : Instr → Prop
  | .init => True
  | .update _ _ => True
  | .updateb _ => True
  | .final => True
  | .verify => True
  | .verifyi _ => True
  | _ => False

/-- `READ`. -/
def IsRead : Instr → Prop
  | .read _ => True
  | _ => False

/-- The staging commands: R101 to R104. -/
def IsStaging : Instr → Prop
  | .cfgw _ _ _ => True
  | .cfgpoly _ => True
  | .cfgxin _ => True
  | .cfgxout _ => True
  | _ => False

/-- The phase a command needs (R205); `none` for a command accepted in every phase. -/
def neededPhase : Instr → Option Phase
  | .update _ _ => some .pre
  | .updateb _ => some .pre
  | .final => some .pre
  | .verify => some .final
  | .verifyi _ => some .final
  | _ => none

/-- Executing a list of commands, one after the other. -/
def execAll : List Instr → State → Result
  | [], s => .next s
  | i :: is, s =>
    match exec i s with
    | .next t => execAll is t
    | .fault r => .fault r
    | .refused r => .refused r

/-- The bytes a chunk command feeds the fold: those of `UPDATE`'s range, which lies in `MEM` or is empty, or `UPDATEB`'s byte;
`none` for any other command. -/
def chunkBytes (m : Memory) : Instr → Option (List Byte)
  | .update base len =>
    if len = 0 ∨ base.toNat + len.toNat ≤ m.size then some ((List.range len.toNat).map fun k => m.read (base.toNat + k)) else none
  | .updateb b => some [b]
  | _ => none

/-- What a staging command leaves in the staging registers (R101 to R104); other commands leave them alone. -/
def stageOne (g : Staging) : Instr → Staging
  | .cfgw n ri ro => { g with width := n, ri := ri, ro := ro }
  | .cfgpoly op => { g with poly := op }
  | .cfgxin op => { g with xin := op }
  | .cfgxout op => { g with xout := op }
  | _ => g

/-- The last value that a list of commands stages, or the value held before (R107). -/
def lastStaged {α : Type} (value : Instr → Option α) (l : List Instr) (before : α) : α :=
  ((l.filterMap value).getLast?).getD before

def cfgwValue : Instr → Option (BitVec 7 × Bool × Bool)
  | .cfgw n ri ro => some (n, ri, ro)
  | _ => none
def cfgpolyValue : Instr → Option Word
  | .cfgpoly op => some op
  | _ => none
def cfgxinValue : Instr → Option Word
  | .cfgxin op => some op
  | _ => none
def cfgxoutValue : Instr → Option Word
  | .cfgxout op => some op
  | _ => none

/-- What R42's table lets a command change, beside the response and the fault fields: everything else of the block's state is
unchanged. `UPDATE` also advances the model's own `draws`. -/
def Keeps (i : Instr) (s t : State) : Prop :=
  match i with
  | .cfgw _ _ _ => t = { s with stg := { s.stg with width := t.stg.width, ri := t.stg.ri, ro := t.stg.ro }, err := t.err, response := t.response }
  | .cfgpoly _ => t = { s with stg := { s.stg with poly := t.stg.poly }, err := t.err, response := t.response }
  | .cfgxin _ => t = { s with stg := { s.stg with xin := t.stg.xin }, err := t.err, response := t.response }
  | .cfgxout _ => t = { s with stg := { s.stg with xout := t.stg.xout }, err := t.err, response := t.response }
  | .cfgcommit => t = { s with cfg := t.cfg, cfgValid := t.cfgValid, err := t.err, response := t.response }
  | .init => t = { s with phase := t.phase, crcReg := t.crcReg, err := t.err, response := t.response }
  | .update _ _ => t = { s with crcReg := t.crcReg, draws := t.draws, err := t.err, response := t.response }
  | .updateb _ => t = { s with crcReg := t.crcReg, err := t.err, response := t.response }
  | .final => t = { s with phase := t.phase, crcReg := t.crcReg, prefinal := t.prefinal, err := t.err, response := t.response }
  | .reflect _ _ => t = { s with err := t.err, response := t.response }
  | .verify => t = { s with syndrome := t.syndrome, vskip := t.vskip, err := t.err, response := t.response }
  | .verifyi _ => t = { s with syndrome := t.syndrome, vskip := t.vskip, err := t.err, response := t.response }
  | .read _ => t = { s with err := t.err, response := t.response }
  | .sreset => t = { State.reset with mem := s.mem, inbox := s.inbox, racing := s.racing, draws := s.draws, response := t.response }

/-- R214's information word of an error raised by a command word, from the state before and the state after. -/
def infoOf (cw : CmdWord) (op : Word) (s t : State) : Code → Word
  | .config => s.stg.width.setWidth 64
  | .phase => s.phase.bits.setWidth 64
  | .range => BitVec.ofNat 64 (max (op.extractLsb' 0 32).toNat s.mem.size)
  | .arg => if cw.extractLsb' 0 8 = 0x20#8 then (cw.extractLsb' 8 7).setWidth 64 else (cw.extractLsb' 16 8).setWidth 64
  | .defect => t.syndrome
  | _ => 0

/-! ## Polynomials over GF(2) (R132) -/

open Polynomial in
/-- `sum v[i] x^i`. -/
noncomputable def polyOf (v : Word) : (ZMod 2)[X] :=
  ∑ i ∈ Finset.range 64, if v.getLsbD i then (X : (ZMod 2)[X]) ^ i else 0

open Polynomial in
/-- `G(x) = x^WIDTH + POLY(x)`. -/
noncomputable def genOf (c : CfgRegs) : (ZMod 2)[X] := X ^ c.width.toNat + polyOf c.poly

open Polynomial in
/-- A bit sequence read most-significant bit first. -/
noncomputable def polyOfBits (bits : List Bool) : (ZMod 2)[X] :=
  bits.foldl (fun p b => p * X + if b then 1 else 0) 0

end Sys2Proof.Statements

open Sys2Proof.Statements

/-! ## Encoding -/

/-- 30_encoding.md R78 and 95_test_vectors.md: words written out from the encodings decode to the commands they stand for. -/
def Obligations.SampleWordsDecode : Prop :=
  decode 0x03002001 0 = .ok (.cfgw 32 true true) ∧
  decode 0x00000002 0x0000000004C11DB7 = .ok (.cfgpoly 0x04C11DB7) ∧
  decode 0x00000011 0x0000000900000100 = .ok (.update 0x100 9) ∧
  decode 0x00310012 0 = .ok (.updateb 0x31) ∧
  decode 0x00002020 0x0000000004C11DB7 = .ok (.reflect 32 0x04C11DB7) ∧
  decode 0x00000031 0x000000000000BB3C = .ok (.verifyi 0xBB3C) ∧
  decode 0x000B0040 0 = .ok (.read 11) ∧
  decode 0x000000FF 0 = .ok .sreset ∧
  decode 0x80000010 0 = .error (.reservedBitSet 0x10) ∧
  decode 0x00000006 0 = .error (.unassignedOpcode 0x06)

/-- Decode of encode: no bit of a command is dropped, and an `OP` the command does not read changes nothing (R72, R74). -/
def Obligations.DecodeOfEncode : Prop :=
  ∀ i : Instr, i.wf = true →
    decode (encodeCw i) (encodeOp i) = .ok i ∧
    (readsOperand i.opcode = false → ∀ op, decode (encodeCw i) op = .ok i)

/-- Encode of decode: each legal command word is the word of exactly one command (R74, R75). -/
def Obligations.EncodeOfDecode : Prop :=
  ∀ (cw : CmdWord) (op : Word) (i : Instr), decode cw op = .ok i →
    encodeCw i = cw ∧ (readsOperand i.opcode = true → encodeOp i = op)

/-- R74: a word selects a row exactly when its masked bits match, and at most one row matches. -/
def Obligations.RowSelectedByMaskAndMatch : Prop :=
  (∀ (cw : CmdWord) (op : Word), ∀ row ∈ opcodeMap,
    ((∃ i, decode cw op = .ok i ∧ i.opcode = row.1) ↔ cw &&& row.2.1 = row.2.2)) ∧
  ∀ cw : CmdWord, ∀ row ∈ opcodeMap, ∀ row' ∈ opcodeMap,
    cw &&& row.2.1 = row.2.2 → cw &&& row'.2.1 = row'.2.2 → row = row'

/-- R75: the decode is total, and an illegal word is of one of two kinds. -/
def Obligations.TwoKindsOfIllegalWord : Prop :=
  ∀ (cw : CmdWord) (op : Word),
    (Unassigned (cw.extractLsb' 0 8).toNat → decode cw op = .error (.unassignedOpcode (cw.extractLsb' 0 8))) ∧
    (¬ Unassigned (cw.extractLsb' 0 8).toNat → (∀ row ∈ opcodeMap, cw &&& row.2.1 ≠ row.2.2) →
      decode cw op = .error (.reservedBitSet (cw.extractLsb' 0 8))) ∧
    (cw.getLsbD 15 = true ∨ cw.extractLsb' 26 6 ≠ 0 → ∃ e, decode cw op = .error e)

/-- R72: which commands read `OP`, and which fields; every other command ignores all of it. -/
def Obligations.OperandUse : Prop :=
  (∀ op, decode 0x02 op = .ok (.cfgpoly op) ∧ decode 0x03 op = .ok (.cfgxin op) ∧ decode 0x04 op = .ok (.cfgxout op) ∧
    decode 0x11 op = .ok (.update (op.extractLsb' 0 32) (op.extractLsb' 32 32)) ∧ decode 0x31 op = .ok (.verifyi op)) ∧
  (∀ (cw : CmdWord) (op : Word), cw &&& 0xFFFF80FF = 0x20 → decode cw op = .ok (.reflect (cw.extractLsb' 8 7) op)) ∧
  ∀ (cw : CmdWord) (op op' : Word), readsOperand (cw.extractLsb' 0 8) = false → decode cw op = decode cw op'

/-- R78: the assembler's word for a line whose operands fit is the encoding of its command, and a line with an operand outside
its range gives no command. The ranges of a pseudo-instruction are those of its expansion (R79); that a character of `updatestr`
is below 128 is log 15's reading of "ASCII string". -/
def Obligations.AssembledLinesAreEncodings : Prop :=
  (∀ w ri ro, w < 128 → ri < 2 → ro < 2 →
    (AsmLine.cfgw w ri ro).assemble = some [encode (.cfgw (BitVec.ofNat 7 w) (ri == 1) (ro == 1))]) ∧
  (∀ v < 2 ^ 64, (AsmLine.cfgpoly v).assemble = some [encode (.cfgpoly (BitVec.ofNat 64 v))] ∧
    (AsmLine.cfgxin v).assemble = some [encode (.cfgxin (BitVec.ofNat 64 v))] ∧
    (AsmLine.cfgxout v).assemble = some [encode (.cfgxout (BitVec.ofNat 64 v))] ∧
    (AsmLine.verifyi v).assemble = some [encode (.verifyi (BitVec.ofNat 64 v))]) ∧
  (∀ base < 2 ^ 32, ∀ len < 2 ^ 32,
    (AsmLine.update base len).assemble = some [encode (.update (BitVec.ofNat 32 base) (BitVec.ofNat 32 len))]) ∧
  (∀ b < 256, (AsmLine.updateb b).assemble = some [encode (.updateb (BitVec.ofNat 8 b))] ∧
    (AsmLine.read b).assemble = some [encode (.read (BitVec.ofNat 8 b))]) ∧
  (∀ v < 2 ^ 64, ∀ n < 128,
    (AsmLine.reflect v n).assemble = some [encode (.reflect (BitVec.ofNat 7 n) (BitVec.ofNat 64 v))]) ∧
  AsmLine.cfgcommit.assemble = some [encode .cfgcommit] ∧ AsmLine.init.assemble = some [encode .init] ∧
  AsmLine.final.assemble = some [encode .final] ∧ AsmLine.verify.assemble = some [encode .verify] ∧
  AsmLine.sreset.assemble = some [encode .sreset] ∧
  (∀ w ri ro, 128 ≤ w ∨ 2 ≤ ri ∨ 2 ≤ ro → (AsmLine.cfgw w ri ro).assemble = none) ∧
  (∀ v, 2 ^ 64 ≤ v → (AsmLine.cfgpoly v).assemble = none ∧ (AsmLine.cfgxin v).assemble = none ∧
    (AsmLine.cfgxout v).assemble = none ∧ (AsmLine.verifyi v).assemble = none) ∧
  (∀ base len, 2 ^ 32 ≤ base ∨ 2 ^ 32 ≤ len →
    (AsmLine.update base len).assemble = none ∧ (AsmLine.crc base len).assemble = none) ∧
  (∀ b, 256 ≤ b → (AsmLine.updateb b).assemble = none ∧ (AsmLine.read b).assemble = none) ∧
  (∀ v n, 2 ^ 64 ≤ v ∨ 128 ≤ n → (AsmLine.reflect v n).assemble = none) ∧
  (∀ w poly xin xout ri ro,
    128 ≤ w ∨ 2 ^ 64 ≤ poly ∨ 2 ^ 64 ≤ xin ∨ 2 ^ 64 ≤ xout ∨ 2 ≤ ri ∨ 2 ≤ ro →
    (AsmLine.configure w poly xin xout ri ro).assemble = none) ∧
  (∀ bytes : List Nat, (∃ b ∈ bytes, 128 ≤ b) → (AsmLine.updatestr bytes).assemble = none)

/-- R79: a pseudo-instruction gives the commands of its expansion, in order. -/
def Obligations.PseudoInstructionsExpand : Prop :=
  (∀ w poly xin xout ri ro a b c d e,
    (AsmLine.cfgw w ri ro).assemble = some a → (AsmLine.cfgpoly poly).assemble = some b →
    (AsmLine.cfgxin xin).assemble = some c → (AsmLine.cfgxout xout).assemble = some d → AsmLine.cfgcommit.assemble = some e →
    (AsmLine.configure w poly xin xout ri ro).assemble = some (a ++ b ++ c ++ d ++ e)) ∧
  (∀ base len a b c, AsmLine.init.assemble = some a → (AsmLine.update base len).assemble = some b →
    AsmLine.final.assemble = some c → (AsmLine.crc base len).assemble = some (a ++ b ++ c)) ∧
  (∀ bytes : List Nat, (∀ b ∈ bytes, b < 128) →
    (AsmLine.updatestr bytes).assemble = some (bytes.flatMap fun b => (AsmLine.updateb b).words))

/-! ## Steps and the ports -/

/-- A step that takes a command runs the decoded command, with the host's writes in flight in `racing`, and then those writes
are in `MEM` (R7, R8; that they land with the response is the model's choice, log 4). -/
def Obligations.StepRunsTheDecodedCommand : Prop :=
  ∀ (s : State) (cw : CmdWord) (op : Word) (during : List Host.Cell) (rest : List HostEvent) (i : Instr),
    s.inbox = .command cw op during :: rest → (∀ w ∈ during, w.1 < s.mem.size) → decode cw op = .ok i →
    step s = onNext (fun t => { t with mem := during.foldl (fun m w => m.write w.1 w.2) t.mem, racing := [] })
      (exec i { s with inbox := rest, racing := during })

/-- R201: an illegal word raises `ERR_ILLEGAL` before any other check, also while faulted, when it is not recorded, whatever
the host writes to `MEM` in flight. That those writes are in `MEM` with the response is the model's choice (log 4); the block
itself changes nothing but the response and the fault fields. -/
def Obligations.IllegalWordRaisesIllegal : Prop :=
  ∀ (s : State) (cw : CmdWord) (op : Word) (during : List Host.Cell) (rest : List HostEvent),
    s.inbox = .command cw op during :: rest → (∀ w ∈ during, w.1 < s.mem.size) →
    (∀ row ∈ opcodeMap, cw &&& row.2.1 ≠ row.2.2) →
    step s = .next { s with
      inbox := rest, mem := during.foldl (fun m w => m.write w.1 w.2) s.mem, racing := [], response := some ⟨.illegal, 0⟩,
      err := if s.err.faulted then s.err else ⟨true, .illegal, cw, 0⟩ }

/-- 60_exceptions.md R225: between commands the block holds its state. -/
def Obligations.WaitingHoldsTheState : Prop := ∀ s : State, s.inbox = [] → step s = .next s

/-- R230: hardware reset between two steps, hardware reset while a command executes, and `SRESET` reset the block alike; the
first two give no response, and `SRESET` responds `(0, 0)`. What of the host and of the model stays is the model's choice: the
pending events `inbox` (log 7, DEDUCED: the spec does not say what a hardware reset does to a command the port holds) and the
model's own fields `racing` and `draws` (log 3). -/
def Obligations.ThreeResetsAreOne : Prop :=
  ∀ (s : State) (rest : List HostEvent),
    (s.inbox = .hardReset :: rest →
      step s = .next { State.reset with mem := s.mem, inbox := rest, racing := s.racing, draws := s.draws }) ∧
    (∀ cw op, s.inbox = .resetDuring cw op :: rest →
      step s = .next { State.reset with mem := s.mem, inbox := rest, racing := s.racing, draws := s.draws }) ∧
    exec .sreset s = .next { State.reset with
      mem := s.mem, inbox := s.inbox, racing := s.racing, draws := s.draws, response := some ⟨.ok, 0⟩ }

/-- R231: every register is 0 after a reset, the response port is idle, and `MEM` is not written. -/
def Obligations.ResetStateIsZero : Prop :=
  ∀ s : State,
    let r := resetBlock s
    r.cfg = ⟨0, false, false, 0, 0, 0, 0, 0, 0⟩ ∧ r.cfgValid = false ∧ r.phase = .idle ∧
    r.err = ⟨false, .ok, 0, 0⟩ ∧ r.vskip = false ∧ r.crcReg = 0 ∧ r.prefinal = 0 ∧ r.syndrome = 0 ∧
    r.stg = ⟨0, false, false, 0, 0, 0⟩ ∧ r.response = none ∧ r.mem = s.mem ∧
    (∀ k, readRegister r k = 0)

/-- R232 and R234: in the reset state the staging commands, `REFLECT`, `READ` and `SRESET` execute, the engine and verifier
commands raise `ERR_NOT_CONFIGURED`, and a commit of the unstaged width 0 raises `ERR_CONFIG(0)`. -/
def Obligations.WhatWorksAfterReset : Prop :=
  ∀ (s₀ : State),
    let s := resetBlock s₀
    (∀ i, IsEngineCommand i → Raises i s .notConfigured 0) ∧ Raises .cfgcommit s .config 0 ∧
    (∀ i, IsStaging i → exec i s = .next { s with stg := stageOne s.stg i, response := some ⟨.ok, 0⟩ }) ∧
    (∀ (n : BitVec 7) (op : Word), 1 ≤ n.toNat → n.toNat ≤ 64 →
      exec (.reflect n op) s = .next { s with response := some ⟨.ok, reflect op n.toNat⟩ }) ∧
    (∀ b : Byte, b.toNat ≤ 12 → exec (.read b) s = .next { s with response := some ⟨.ok, 0⟩ }) ∧
    exec .sreset s = .next { s with response := some ⟨.ok, 0⟩ }

/-- 20_memory.md R63: a host write that completes before a command is issued is in `MEM`, and no other byte changes. -/
def Obligations.HostWriteIsInMem : Prop :=
  ∀ (s : State) (a : Nat) (b : Byte) (rest : List HostEvent), s.inbox = .memWrite a b :: rest → a < s.mem.size →
    ∃ t, step s = .next t ∧ t.mem.read a = b ∧ (∀ x, x ≠ a → t.mem.read x = s.mem.read x) ∧
      t = { s with inbox := rest, mem := t.mem } ∧ t.mem.size = s.mem.size

/-- Every command answers a next state with exactly one response (R77, R134, R241): no command stops the model. -/
def Obligations.EveryCommandResponds : Prop :=
  ∀ (i : Instr) (s : State), ∃ t r, exec i s = .next t ∧ t.response = some r

/-! ## Configuration -/

/-- R101, whole: encoding, checks, and the staging registers written. -/
def Obligations.CfgwStagesWidthAndFlags : Prop :=
  (∀ (cw : CmdWord) (op : Word), cw &&& 0xFCFF80FF = 0x00000001 →
    decode cw op = .ok (.cfgw (cw.extractLsb' 8 7) (cw.getLsbD 24) (cw.getLsbD 25))) ∧
  ∀ (n : BitVec 7) (ri ro : Bool) (s : State),
    (s.err.faulted = true → RefusesFaulted (.cfgw n ri ro) s) ∧
    (s.err.faulted = false → s.cfgValid = true → Raises (.cfgw n ri ro) s .cfgLocked 0) ∧
    (s.err.faulted = false → s.cfgValid = false →
      exec (.cfgw n ri ro) s =
        .next { s with stg := { s.stg with width := n, ri := ri, ro := ro }, response := some ⟨.ok, 0⟩ })

/-- R102, R103, R104, whole: each stages all of `OP`, unmasked, in its own register. -/
def Obligations.StagingWordsTakeTheOperand : Prop :=
  (∀ op, decode 0x00000002 op = .ok (.cfgpoly op) ∧ decode 0x00000003 op = .ok (.cfgxin op) ∧
    decode 0x00000004 op = .ok (.cfgxout op)) ∧
  ∀ (op : Word) (s : State),
    (s.err.faulted = true → RefusesFaulted (.cfgpoly op) s ∧ RefusesFaulted (.cfgxin op) s ∧ RefusesFaulted (.cfgxout op) s) ∧
    (s.err.faulted = false → s.cfgValid = true →
      Raises (.cfgpoly op) s .cfgLocked 0 ∧ Raises (.cfgxin op) s .cfgLocked 0 ∧ Raises (.cfgxout op) s .cfgLocked 0) ∧
    (s.err.faulted = false → s.cfgValid = false →
      exec (.cfgpoly op) s = .next { s with stg := { s.stg with poly := op }, response := some ⟨.ok, 0⟩ } ∧
      exec (.cfgxin op) s = .next { s with stg := { s.stg with xin := op }, response := some ⟨.ok, 0⟩ } ∧
      exec (.cfgxout op) s = .next { s with stg := { s.stg with xout := op }, response := some ⟨.ok, 0⟩ })

/-- R105, whole: a commit validates the staged width, masks, derives and locks. -/
def Obligations.CommitValidatesMasksDerivesLocks : Prop :=
  (∀ op, decode 0x00000005 op = .ok .cfgcommit) ∧
  ∀ s : State,
    let w := s.stg.width.toNat
    let m : Word := BitVec.ofNat 64 (2 ^ w - 1)
    (s.err.faulted = true → RefusesFaulted .cfgcommit s) ∧
    (s.err.faulted = false → s.cfgValid = true → Raises .cfgcommit s .cfgLocked 0) ∧
    (s.err.faulted = false → s.cfgValid = false → w < 1 ∨ 64 < w → Raises .cfgcommit s .config (BitVec.ofNat 64 w)) ∧
    (s.err.faulted = false → s.cfgValid = false → 1 ≤ w → w ≤ 64 →
      exec .cfgcommit s = .next { s with
        cfg := {
          width := s.stg.width, reflectIn := s.stg.ri, reflectOut := s.stg.ro,
          poly := s.stg.poly &&& m, xorIn := s.stg.xin &&& m, xorOut := s.stg.xout &&& m,
          crcMask := m, msbMask := 1#64 <<< (w - 1), shift := BitVec.ofNat 3 (max 0 (8 - w)) },
        cfgValid := true, response := some ⟨.ok, 0⟩ })

/-- R107: staging commands in any order and number; the last write to each staging register wins. -/
def Obligations.LastStagedValueWins : Prop :=
  ∀ (l : List Instr) (s : State), (∀ i ∈ l, IsStaging i) → s.err.faulted = false → s.cfgValid = false →
    let g : Staging := {
      width := (lastStaged cfgwValue l (s.stg.width, s.stg.ri, s.stg.ro)).1
      ri := (lastStaged cfgwValue l (s.stg.width, s.stg.ri, s.stg.ro)).2.1
      ro := (lastStaged cfgwValue l (s.stg.width, s.stg.ri, s.stg.ro)).2.2
      poly := lastStaged cfgpolyValue l s.stg.poly
      xin := lastStaged cfgxinValue l s.stg.xin
      xout := lastStaged cfgxoutValue l s.stg.xout }
    (∃ t, execAll l s = .next t ∧ t = { s with stg := g, response := t.response }) ∧
    (1 ≤ g.width.toNat → g.width.toNat ≤ 64 →
      ∃ t, execAll (l ++ [.cfgcommit]) s = .next t ∧ t.cfg = commitRegs g ∧ t.cfgValid = true)

/-- R108: once committed, only a reset changes the configuration or `CFG_VALID`. -/
def Obligations.CommittedConfigurationIsImmutable : Prop :=
  ∀ s t : State, s.cfgValid = true → step s = .next t →
    (t.cfg = s.cfg ∧ t.cfgValid = true) ∨
    (∃ rest, s.inbox = .hardReset :: rest) ∨ (∃ cw op rest, s.inbox = .resetDuring cw op :: rest) ∨
    (∃ op during rest, s.inbox = .command 0x000000FF op during :: rest)

/-! ## The engine -/

/-- R125 with R130, whole: `INIT` sets the register to `init_value`, in every phase. -/
def Obligations.InitSetsTheRegister : Prop :=
  (∀ op, decode 0x00000010 op = .ok .init) ∧
  ∀ s : State,
    (s.err.faulted = true → RefusesFaulted .init s) ∧
    (s.err.faulted = false → s.cfgValid = false → Raises .init s .notConfigured 0) ∧
    (s.err.faulted = false → s.cfgValid = true → s.cfg.reflectIn = false →
      exec .init s = .next { s with crcReg := s.cfg.xorIn, phase := .pre, response := some ⟨.ok, s.cfg.xorIn⟩ }) ∧
    (s.err.faulted = false → s.cfgValid = true → s.cfg.reflectIn = true →
      exec .init s = .next { s with
        crcReg := reflect s.cfg.xorIn s.cfg.width.toNat, phase := .pre,
        response := some ⟨.ok, reflect s.cfg.xorIn s.cfg.width.toNat⟩ })

/-- R126, whole, where the host does not write into the range in flight: the bytes `MEM[BASE..BASE+LEN-1]` are folded in
ascending order, after the range check without wrap-around. -/
def Obligations.UpdateFoldsTheRange : Prop :=
  (∀ op, decode 0x00000011 op = .ok (.update (op.extractLsb' 0 32) (op.extractLsb' 32 32))) ∧
  ∀ (base len : BitVec 32) (s : State),
    (s.err.faulted = true → RefusesFaulted (.update base len) s) ∧
    (s.err.faulted = false → s.cfgValid = false → Raises (.update base len) s .notConfigured 0) ∧
    (s.err.faulted = false → s.cfgValid = true → s.phase ≠ .pre →
      Raises (.update base len) s .phase (s.phase.bits.setWidth 64)) ∧
    (Ready .pre s → 0 < len.toNat → s.mem.size < base.toNat + len.toNat →
      Raises (.update base len) s .range (BitVec.ofNat 64 (max base.toNat s.mem.size))) ∧
    (Ready .pre s → len.toNat = 0 ∨ base.toNat + len.toNat ≤ s.mem.size → ¬ RacesRange s base.toNat len.toNat →
      let r := fold s.cfg s.crcReg ((List.range len.toNat).map fun k => s.mem.read (base.toNat + k))
      exec (.update base len) s = .next { s with crcReg := r, response := some ⟨.ok, r⟩ })

/-- 20_memory.md R63: when the host writes a byte of the range in flight, every byte read is a free byte, a draw of its own, and
the rest of the command follows the rules. It holds whatever the free bytes are. -/
def Obligations.RacedUpdateFoldsFreeBytes : Prop :=
  ∀ (base len : BitVec 32) (s : State), Ready .pre s → base.toNat + len.toNat ≤ s.mem.size →
    RacesRange s base.toNat len.toNat →
    let r := fold s.cfg s.crcReg ((List.range len.toNat).map fun k => Config.freeByte (s.draws + k))
    exec (.update base len) s = .next { s with
      crcReg := r, draws := s.draws + len.toNat, response := some ⟨.ok, r⟩ }

/-- R127, whole: `UPDATEB` folds the byte `CW[23:16]`; it leaves exactly the state that `UPDATE` leaves over a one-byte range
holding that byte. R121 (and 20_memory.md R55), whole: the bits of a byte enter the fold from bit 7 to bit 0 when
`REFLECT_IN = 0`, and from bit 0 to bit 7 when `REFLECT_IN = 1`. -/
def Obligations.UpdatebFoldsTheByte : Prop :=
  (∀ (cw : CmdWord) (op : Word), cw &&& 0xFF00FFFF = 0x00000012 → decode cw op = .ok (.updateb (cw.extractLsb' 16 8))) ∧
  (∀ (c : CfgRegs) (r : Word) (d : Byte),
    (c.reflectIn = false → foldByte c r d = ([7, 6, 5, 4, 3, 2, 1, 0].map fun i => d.getLsbD i).foldl (foldBit c) r) ∧
    (c.reflectIn = true → foldByte c r d = ([0, 1, 2, 3, 4, 5, 6, 7].map fun i => d.getLsbD i).foldl (foldBit c) r)) ∧
  ∀ (b : Byte) (s : State),
    (s.err.faulted = true → RefusesFaulted (.updateb b) s) ∧
    (s.err.faulted = false → s.cfgValid = false → Raises (.updateb b) s .notConfigured 0) ∧
    (s.err.faulted = false → s.cfgValid = true → s.phase ≠ .pre → Raises (.updateb b) s .phase (s.phase.bits.setWidth 64)) ∧
    (Ready .pre s → exec (.updateb b) s = .next { s with
      crcReg := foldByte s.cfg s.crcReg b, response := some ⟨.ok, foldByte s.cfg s.crcReg b⟩ }) ∧
    (∀ base : BitVec 32, Ready .pre s → base.toNat < s.mem.size → s.mem.read base.toNat = b → s.racing = [] →
      exec (.updateb b) s = exec (.update base 1) s)

/-- R128 with R129, whole: `FINAL` captures the pre-final register and finalizes. -/
def Obligations.FinalCapturesAndFinalizes : Prop :=
  (∀ op, decode 0x00000013 op = .ok .final) ∧
  ∀ s : State,
    (s.err.faulted = true → RefusesFaulted .final s) ∧
    (s.err.faulted = false → s.cfgValid = false → Raises .final s .notConfigured 0) ∧
    (s.err.faulted = false → s.cfgValid = true → s.phase ≠ .pre → Raises .final s .phase (s.phase.bits.setWidth 64)) ∧
    (Ready .pre s →
      let v := if s.cfg.reflectOut then reflect s.crcReg s.cfg.width.toNat else s.crcReg
      let c := (v ^^^ s.cfg.xorOut) &&& s.cfg.crcMask
      exec .final s = .next { s with prefinal := s.crcReg, crcReg := c, phase := .final, response := some ⟨.ok, c⟩ })

/-- R131: an `UPDATE` over a range and the two `UPDATE`s over its parts leave the same state. -/
def Obligations.SplitUpdateIsTheSame : Prop :=
  ∀ (base l₁ l₂ : BitVec 32) (s : State), Ready .pre s → s.mem.wf → s.racing = [] →
    l₁.toNat + l₂.toNat < 2 ^ 32 → base.toNat + l₁.toNat + l₂.toNat ≤ s.mem.size →
    ∃ t u, exec (.update base l₁) s = .next t ∧ exec (.update (base + l₁) l₂) t = .next u ∧
      exec (.update base (l₁ + l₂)) s = .next u

/-- R131, whole (the spec marks it as derived from R122): folding a message in parts is folding it whole, for any partition; and
for any `UPDATE` and `UPDATEB` commands between one `INIT` and one `FINAL`, with no host write in flight, `CRC_REG` after every
chunk boundary, and the state `FINAL` leaves with its checksum, depend on the bytes fed alone, not on how the commands cut them. -/
def Obligations.StreamingEquivalence : Prop :=
  (∀ (c : CfgRegs) (r : Word) (a b : List Byte), fold c r (a ++ b) = fold c (fold c r a) b) ∧
  (∀ (c : CfgRegs) (r : Word) (chunks : List (List Byte)), foldChunks c r chunks = fold c r chunks.flatten) ∧
  ∀ (s : State) (l : List Instr) (chunks : List (List Byte)),
    s.err.faulted = false → s.cfgValid = true → s.racing = [] → l.mapM (chunkBytes s.mem) = some chunks →
    (∀ k ≤ l.length,
      let r := fold s.cfg (initValue s.cfg) (chunks.take k).flatten
      execAll (.init :: l.take k) s = .next { s with crcReg := r, phase := .pre, response := some ⟨.ok, r⟩ }) ∧
    let r := fold s.cfg (initValue s.cfg) chunks.flatten
    let v := finalizeValue s.cfg r
    execAll (.init :: l ++ [.final]) s = .next { s with
      crcReg := v, prefinal := r, phase := .final, response := some ⟨.ok, v⟩ }

/-- R123: the byte-wide formulation with the sub-byte `SHIFT` returns `fold_byte`, and its low `SHIFT` bits end at 0. -/
def Obligations.SubByteFormulationAgrees : Prop :=
  ∀ c : CfgRegs, CfgLegal c → c.width.toNat < 8 → ∀ (r : Word) (d : Byte), r &&& c.crcMask = r →
    foldByteW8 c r d = foldByte c r d ∧
    ∀ j < c.shift.toNat, ((foldBitW8 c)^[8] ((r <<< c.shift.toNat).setWidth 8 ^^^ inputByte c d)).getLsbD j = false

/-- R234: under a zero polynomial the register is 0 once `WIDTH` bits have been folded. -/
def Obligations.ZeroPolynomialForgets : Prop :=
  ∀ c : CfgRegs, CfgLegal c → c.poly = 0 →
    (∀ r b, foldBit c r b = (r <<< 1) &&& c.crcMask) ∧
    ∀ (r : Word) (bytes : List Byte), c.width.toNat ≤ 8 * bytes.length → fold c r bytes = 0

/-- R132: `fold_bit(r, b) = (r * x + b * x^WIDTH) mod G` and `fold(r, s) = (r * x^(8k) + D * x^WIDTH) mod G` over GF(2). -/
def Obligations.FoldIsPolynomialDivision : Prop :=
  ∀ c : CfgRegs, CfgLegal c → ∀ r : Word, r &&& c.crcMask = r →
    (∀ b : Bool, polyOf (foldBit c r b) =
      (polyOf r * Polynomial.X + (if b then 1 else 0) * Polynomial.X ^ c.width.toNat) %ₘ genOf c) ∧
    ∀ bytes : List Byte, polyOf (fold c r bytes) =
      (polyOf r * Polynomial.X ^ (8 * bytes.length) +
        polyOfBits (bytes.flatMap fun d => (List.range 8).map fun i => (inputByte c d).getLsbD (7 - i)) *
          Polynomial.X ^ c.width.toNat) %ₘ genOf c

/-! ## Reflection -/

/-- R152 with R150, whole: `REFLECT` answers the reversed low `N` bits and changes nothing else. -/
def Obligations.ReflectReversesTheLowBits : Prop :=
  (∀ (cw : CmdWord) (op : Word), cw &&& 0xFFFF80FF = 0x00000020 → decode cw op = .ok (.reflect (cw.extractLsb' 8 7) op)) ∧
  ∀ (n : BitVec 7) (op : Word) (s : State),
    (s.err.faulted = true → RefusesFaulted (.reflect n op) s) ∧
    (s.err.faulted = false → n.toNat < 1 ∨ 64 < n.toNat → Raises (.reflect n op) s .arg (n.setWidth 64)) ∧
    (s.err.faulted = false → 1 ≤ n.toNat → n.toNat ≤ 64 →
      ∃ v : Word, exec (.reflect n op) s = .next { s with response := some ⟨.ok, v⟩ } ∧
        (∀ i, i < n.toNat → v.getLsbD i = op.getLsbD (n.toNat - 1 - i)) ∧ (∀ i, n.toNat ≤ i → v.getLsbD i = false))

/-- R151: the laws of reflection. -/
def Obligations.ReflectionLaws : Prop :=
  ∀ n : Nat, 1 ≤ n → n ≤ 64 →
    (∀ x : Word, x.toNat < 2 ^ n → reflect (reflect x n) n = x) ∧
    (∀ v : Word, reflect (reflect v n) n = v &&& mask n) ∧
    reflect 0 n = 0 ∧ reflect (mask n) n = mask n

/-! ## The verifier -/

/-- R165 with R160, whole: `VERIFY` runs the syndrome of `PREFINAL` and `CRC_REG`; a nonzero one is kept and raises
`ERR_DEFECT`. -/
def Obligations.VerifyChecksItsOwnChecksum : Prop :=
  (∀ op, decode 0x00000030 op = .ok .verify) ∧
  ∀ s : State,
    (s.err.faulted = true → RefusesFaulted .verify s) ∧
    (s.err.faulted = false → s.cfgValid = false → Raises .verify s .notConfigured 0) ∧
    (s.err.faulted = false → s.cfgValid = true → s.phase ≠ .final → Raises .verify s .phase (s.phase.bits.setWidth 64)) ∧
    (Ready .final s → s.cfg.width.toNat % 8 ≠ 0 →
      exec .verify s = .next { s with syndrome := 0, vskip := true, response := some ⟨.ok, 0⟩ }) ∧
    (Ready .final s → s.cfg.width.toNat % 8 = 0 →
      let syn := feedBack s.cfg s.prefinal (unfinalize s.cfg s.crcReg)
      (syn = 0 → exec .verify s = .next { s with syndrome := 0, vskip := false, response := some ⟨.ok, 0⟩ }) ∧
      (syn ≠ 0 → exec .verify s = .next { s with
        syndrome := syn, vskip := false, err := ⟨true, .defect, 0x00000030, syn⟩, response := some ⟨.defect, syn⟩ }))

/-- R166, whole: `VERIFYI` runs the syndrome of `PREFINAL` and `OP`; bits of `OP` at or above `WIDTH` have no effect; the checksum
`CRC_REG` behaves as `VERIFY` (but for the command word a fault records); and a checksum that differs from the correct one in bits
`WIDTH-1 .. 0` gives a nonzero syndrome whenever `WIDTH % 8 = 0` and `POLY[0] = 1`. -/
def Obligations.VerifyiChecksTheOperand : Prop :=
  (∀ op, decode 0x00000031 op = .ok (.verifyi op)) ∧
  ∀ (c : Word) (s : State),
    (s.err.faulted = true → RefusesFaulted (.verifyi c) s) ∧
    (s.err.faulted = false → s.cfgValid = false → Raises (.verifyi c) s .notConfigured 0) ∧
    (s.err.faulted = false → s.cfgValid = true → s.phase ≠ .final → Raises (.verifyi c) s .phase (s.phase.bits.setWidth 64)) ∧
    (Ready .final s → s.cfg.width.toNat % 8 ≠ 0 →
      exec (.verifyi c) s = .next { s with syndrome := 0, vskip := true, response := some ⟨.ok, 0⟩ }) ∧
    (Ready .final s → s.cfg.width.toNat % 8 = 0 →
      let syn := feedBack s.cfg s.prefinal (unfinalize s.cfg c)
      (syn = 0 → exec (.verifyi c) s = .next { s with syndrome := 0, vskip := false, response := some ⟨.ok, 0⟩ }) ∧
      (syn ≠ 0 → exec (.verifyi c) s = .next { s with
        syndrome := syn, vskip := false, err := ⟨true, .defect, 0x00000031, syn⟩, response := some ⟨.defect, syn⟩ })) ∧
    (∀ c' : Word, CfgLegal s.cfg → c &&& s.cfg.crcMask = c' &&& s.cfg.crcMask → exec (.verifyi c) s = exec (.verifyi c') s) ∧
    (∀ t, exec .verify s = .next t → ∃ cw, exec (.verifyi s.crcReg) s = .next { t with err := { t.err with cw := cw } }) ∧
    (CfgLegal s.cfg → s.cfg.width.toNat % 8 = 0 → s.cfg.poly.getLsbD 0 = true → s.prefinal &&& s.cfg.crcMask = s.prefinal →
      c &&& s.cfg.crcMask ≠ finalizeValue s.cfg s.prefinal → feedBack s.cfg s.prefinal (unfinalize s.cfg c) ≠ 0)

/-- R163: the bits that enter the register are `u[WIDTH-1], ..., u[0]`, whatever `REFLECT_IN` is. -/
def Obligations.FeedBackEntersTheChecksumBits : Prop :=
  ∀ (c : CfgRegs) (pre u : Word), CfgLegal c → c.width.toNat % 8 = 0 →
    feedBack c pre u =
      ((List.range c.width.toNat).map fun i => u.getLsbD (c.width.toNat - 1 - i)).foldl (foldBit c) pre

/-- R167: the zero-syndrome property, the general value of the syndrome, and when it is 0. -/
def Obligations.ZeroSyndromeProperty : Prop :=
  ∀ c : CfgRegs, CfgLegal c → c.width.toNat % 8 = 0 → ∀ pre : Word, pre &&& c.crcMask = pre →
    unfinalize c (finalizeValue c pre) = pre ∧
    feedBack c pre pre = 0 ∧
    (∀ u : Word, u &&& c.crcMask = u →
      polyOf (feedBack c pre u) = (polyOf (pre ^^^ u) * Polynomial.X ^ c.width.toNat) %ₘ genOf c) ∧
    (c.poly.getLsbD 0 = true → ∀ u : Word, u &&& c.crcMask = u → (feedBack c pre u = 0 ↔ u = pre)) ∧
    (c.poly.getLsbD 0 = false → ∃ u : Word, u &&& c.crcMask = u ∧ u ≠ pre ∧ feedBack c pre u = 0) ∧
    (c.poly = 0 → ∀ u : Word, feedBack c pre u = 0)

/-- R167 on the machine (93_implementation_defined.md OP16): where the invariant holds, `VERIFY` never finds a defect. -/
def Obligations.VerifyNeverFindsADefect : Prop :=
  ∀ s : State, Inv s → Ready .final s →
    exec .verify s = .next { s with
      syndrome := 0, vskip := decide (s.cfg.width.toNat % 8 ≠ 0), response := some ⟨.ok, 0⟩ }

/-! ## Control -/

/-- R180 with R21, whole: `READ` answers the register with the index, faulted or not, and changes nothing else. -/
def Obligations.ReadAnswersTheRegister : Prop :=
  (∀ (cw : CmdWord) (op : Word), cw &&& 0xFF00FFFF = 0x00000040 → decode cw op = .ok (.read (cw.extractLsb' 16 8))) ∧
  ∀ s : State,
    (∀ row ∈ ([(0, statusWord s), (1, cfgWord s.cfg), (2, s.cfg.poly), (3, s.cfg.xorIn), (4, s.cfg.xorOut), (5, s.cfg.crcMask),
        (6, s.cfg.msbMask), (7, s.cfg.shift.setWidth 64), (8, s.crcReg), (9, s.prefinal), (10, s.syndrome),
        (11, s.err.cw.setWidth 64), (12, s.err.info)] : List (Byte × Word)),
      exec (.read row.1) s = .next { s with response := some ⟨.ok, row.2⟩ }) ∧
    (∀ b : Byte, 12 < b.toNat → s.err.faulted = false → Raises (.read b) s .arg (b.setWidth 64)) ∧
    (∀ b : Byte, 12 < b.toNat → s.err.faulted = true → exec (.read b) s = .next { s with response := some ⟨.arg, 0⟩ })

/-- R182, whole: `SRESET` executes in every state, also faulted; every register takes its reset value and `MEM` is kept. -/
def Obligations.SresetLeavesTheResetState : Prop :=
  (∀ op, decode 0x000000FF op = .ok .sreset) ∧
  ∀ s : State, exec .sreset s = .next { s with
    cfg := ⟨0, false, false, 0, 0, 0, 0, 0, 0⟩, cfgValid := false, stg := ⟨0, false, false, 0, 0, 0⟩, phase := .idle,
    crcReg := 0, prefinal := 0, syndrome := 0, vskip := false, err := ⟨false, .ok, 0, 0⟩, response := some ⟨.ok, 0⟩ }

/-- R35 and R30: where the fields stand in `STATUS` and `CFG`, and that the other bits read as 0; with the numbers of the ten
codes (R200's table) and of the three phases (R32's). -/
def Obligations.StatusAndCfgLayout : Prop :=
  (Code.ok.bits = 0 ∧ Code.illegal.bits = 1 ∧ Code.config.bits = 2 ∧ Code.cfgLocked.bits = 3 ∧ Code.notConfigured.bits = 4 ∧
    Code.phase.bits = 5 ∧ Code.range.bits = 6 ∧ Code.arg.bits = 7 ∧ Code.defect.bits = 8 ∧ Code.faulted.bits = 9) ∧
  (Phase.idle.bits = 0 ∧ Phase.pre.bits = 1 ∧ Phase.final.bits = 2) ∧
  ∀ s : State,
    (statusWord s).getLsbD 0 = s.cfgValid ∧ (statusWord s).extractLsb' 1 2 = s.phase.bits ∧
    (statusWord s).getLsbD 3 = s.err.faulted ∧ (statusWord s).extractLsb' 4 4 = s.err.code.bits ∧
    (statusWord s).getLsbD 8 = s.vskip ∧ (statusWord s).extractLsb' 9 55 = 0 ∧
    (cfgWord s.cfg).extractLsb' 0 7 = s.cfg.width ∧ (cfgWord s.cfg).getLsbD 7 = false ∧
    (cfgWord s.cfg).getLsbD 8 = s.cfg.reflectIn ∧ (cfgWord s.cfg).getLsbD 9 = s.cfg.reflectOut ∧
    (cfgWord s.cfg).extractLsb' 10 54 = 0

/-! ## Errors -/

/-- R209: a faulted block answers `ERR_FAULTED` to every command but `READ` and `SRESET`, and writes nothing. -/
def Obligations.FaultedBlockRefuses : Prop :=
  ∀ (i : Instr) (s : State), s.err.faulted = true → ¬ IsRead i → i ≠ .sreset → RefusesFaulted i s

/-- R203: after a commit every configuration command raises `ERR_CFG_LOCKED`. -/
def Obligations.LockedConfigurationRaises : Prop :=
  ∀ (i : Instr) (s : State), s.err.faulted = false → s.cfgValid = true → IsConfigCommand i → Raises i s .cfgLocked 0

/-- R204: before a commit every engine and verifier command raises `ERR_NOT_CONFIGURED`; no other command does, ever. -/
def Obligations.UnconfiguredEngineRaises : Prop :=
  (∀ (i : Instr) (s : State), s.err.faulted = false → s.cfgValid = false → IsEngineCommand i → Raises i s .notConfigured 0) ∧
  ∀ (i : Instr) (s t : State) (d : Word), ¬ IsEngineCommand i → exec i s = .next t → t.response ≠ some ⟨.notConfigured, d⟩

/-- R205: a command in a phase it does not accept raises `ERR_PHASE` with that phase; a command accepted in every phase never
does. -/
def Obligations.WrongPhaseRaises : Prop :=
  (∀ (i : Instr) (p : Phase) (s : State), neededPhase i = some p → s.err.faulted = false → s.cfgValid = true → s.phase ≠ p →
    Raises i s .phase (s.phase.bits.setWidth 64)) ∧
  ∀ (i : Instr) (s t : State) (d : Word), neededPhase i = none → exec i s = .next t → t.response ≠ some ⟨.phase, d⟩

/-- R206: an `UPDATE` whose nonempty range leaves `MEM` raises `ERR_RANGE`, without wrap-around; `LEN = 0` never does. -/
def Obligations.RangeErrorExactly : Prop :=
  ∀ (base len : BitVec 32) (s t : State), Ready .pre s → exec (.update base len) s = .next t →
    ((∃ d, t.response = some ⟨.range, d⟩) ↔ 0 < len.toNat ∧ s.mem.size < base.toNat + len.toNat) ∧
    ((∃ d, t.response = some ⟨.range, d⟩) → t = { s with err := t.err, response := t.response } ∧ t.crcReg = s.crcReg)

/-- R216: while faulted, only an illegal word and `READ` respond with another error than `ERR_FAULTED`, and nothing is
recorded. -/
def Obligations.FirstErrorIsKept : Prop :=
  ∀ (cw : CmdWord) (op : Word) (s t : State), s.err.faulted = true → cw ≠ 0x000000FF → runWord cw op s = .next t →
    t.err = s.err ∧
    (t.response = some ⟨.faulted, 0⟩ ∨
      (t.response = some ⟨.illegal, 0⟩ ∧ ∃ e, decode cw op = .error e) ∨
      ∃ b, decode cw op = .ok (.read b) ∧ (t.response = some ⟨.arg, 0⟩ ∨ ∃ v, t.response = some ⟨.ok, v⟩))

/-- R212: a command that responds with an error changes nothing but the fault fields and the response; `ERR_DEFECT` also keeps
`SYNDROME` and `VSKIP`. -/
def Obligations.ErrorsArePrecise : Prop :=
  ∀ (cw : CmdWord) (op : Word) (s t : State) (r : Response), runWord cw op s = .next t → t.response = some r → r.rstat ≠ .ok →
    (r.rstat ≠ .defect → t = { s with err := t.err, response := t.response }) ∧
    (r.rstat = .defect →
      t = { s with err := t.err, response := t.response, syndrome := t.syndrome, vskip := t.vskip })

/-- R213 and R214: the first error other than `ERR_FAULTED` records its code, the whole command word and its information word;
without an error the fault fields do not change, but for `SRESET`. -/
def Obligations.FirstErrorIsRecorded : Prop :=
  ∀ (cw : CmdWord) (op : Word) (s t : State) (r : Response), runWord cw op s = .next t → t.response = some r →
    s.err.faulted = false →
    (r.rstat ≠ .ok → t.err = ⟨true, r.rstat, cw, infoOf cw op s t r.rstat⟩) ∧
    (r.rstat = .ok → cw ≠ 0x000000FF → t.err = s.err)

/-- R217: an error's `RDATA` is 0, except that `ERR_DEFECT` reports the syndrome. -/
def Obligations.ErrorDataIsZeroOrTheSyndrome : Prop :=
  ∀ (cw : CmdWord) (op : Word) (s t : State) (r : Response), runWord cw op s = .next t → t.response = some r → r.rstat ≠ .ok →
    r.rdata = if r.rstat = .defect then t.syndrome else 0

/-! ## Frames -/

/-- R42: every command leaves unchanged the state its row of the table leaves unchanged. -/
def Obligations.CommandsKeepTheRestOfTheState : Prop :=
  ∀ (i : Instr) (s t : State), exec i s = .next t → Keeps i s t

/-- R50, R52: no command writes `MEM`: every address reads as before, and the host's pending events stay. -/
def Obligations.NoCommandWritesMem : Prop :=
  ∀ (i : Instr) (s t : State), exec i s = .next t →
    (∀ a, t.mem.read a = s.mem.read a) ∧ t.mem.size = s.mem.size ∧ t.inbox = s.inbox ∧ t.racing = s.racing

/-! ## The invariant -/

/-- The reset state meets the invariant. -/
def Obligations.ResetMeetsTheInvariant : Prop := Inv State.reset

/-- Every step keeps the invariant (R29, R31, R33, R34, R36, R38, R39, R109, R169, R200). -/
def Obligations.StepKeepsTheInvariant : Prop := ∀ s t : State, Inv s → step s = .next t → Inv t
end

