-- ==== Sys2Proof/Laws/Encoding.lean ====
section
/-! SUPPORT. Every term is well formed; the bits of the encoder's words. -/

namespace Sys2Proof

/-- The operand types are the fields' widths, so R73's ranges hold of every term. -/
theorem wf_all (i : Instr) : i.wf = true := by
  cases i <;> simp [Instr.wf] <;> omega

@[simp] theorem encode_fst (i : Instr) : (encode i).1 = encodeCw i := rfl
@[simp] theorem encode_snd (i : Instr) : (encode i).2 = encodeOp i := rfl

end Sys2Proof
end

