-- ==== Sys2Proof/Laws/Operands.lean ====
section
/-! SUPPORT. The bits of reflection, masks and the bytes of an update. -/

namespace Sys2Proof.Machine

theorem getLsbD_reflectBits (v : Word) (n k i : Nat) (hk : k ≤ 64) :
    (reflectBits v n k).getLsbD i = (decide (i < k) && v.getLsbD (n - 1 - i)) := by
  induction k with
  | zero => simp [reflectBits]
  | succ k ih =>
    rw [reflectBits, BitVec.getLsbD_or, ih (by omega)]
    simp only [BitVec.getLsbD_shiftLeft, BitVec.getLsbD_setWidth, BitVec.getLsbD_ofBool]
    rcases lt_trichotomy i k with h | rfl | h
    · simp [h, show i < k + 1 by omega]
    · simp [show i < 64 by omega]
    · simp [show ¬ i < k by omega, show ¬ i < k + 1 by omega, show ¬ i - k = 0 by omega]

/-- Bit `i` of `reflect(v, n)` is bit `n-1-i` of `v` (42_bit_reflect.md R150). -/
theorem getLsbD_reflect (v : Word) {n : Nat} (hn : n ≤ 64) (i : Nat) :
    (reflect v n).getLsbD i = (decide (i < n) && v.getLsbD (n - 1 - i)) := getLsbD_reflectBits v n n i hn

theorem getLsbD_reflectByte (c : Byte) (i : Nat) :
    (reflectByte c).getLsbD i = (decide (i < 8) && c.getLsbD (7 - i)) := by
  simp only [reflectByte, BitVec.getLsbD_setWidth, getLsbD_reflect _ (show 8 ≤ 64 by omega)]
  by_cases h : i < 8 <;> simp [h]
  omega

/-- Bit `i` of `mask(w)` (00_scope.md R10). -/
theorem getLsbD_mask (w : Nat) (hw : w ≤ 64) (i : Nat) : (mask w).getLsbD i = decide (i < w) := by
  simp only [mask, BitVec.getLsbD_ofNat, Nat.testBit_two_pow_sub_one]
  by_cases h : i < w
  · simp [h, show i < 64 by omega]
  · simp [h]

/-- Bit `i` of `MSB_MASK` (10_state.md R27). -/
theorem getLsbD_msbMask (w : Nat) (hw : w ≤ 64) (hp : 1 ≤ w) (i : Nat) : (msbMask w).getLsbD i = decide (i = w - 1) := by
  simp only [msbMask, BitVec.getLsbD_ofNat, Nat.testBit_two_pow]
  by_cases h : i = w - 1
  · simp [h, show w - 1 < 64 by omega]
  · simp [h, show ¬ w - 1 = i by omega]

/-- A word is masked to `w` bits when its bits from `w` up are 0. -/
theorem and_mask_eq_self (v : Word) {w : Nat} (hw : w ≤ 64) : v &&& mask w = v ↔ ∀ i, w ≤ i → v.getLsbD i = false := by
  constructor
  · intro h i hi
    have := congrArg (·.getLsbD i) h
    simp only [BitVec.getLsbD_and, getLsbD_mask w hw] at this
    simpa [show ¬ i < w by omega] using this.symm
  · intro h
    apply BitVec.eq_of_getLsbD_eq
    intro i _
    rw [BitVec.getLsbD_and, getLsbD_mask w hw]
    by_cases hi : i < w
    · simp [hi]
    · simp [hi, h i (by omega)]

/-- A reflected value occupies exactly its `n` bits (R150). -/
theorem reflect_masked (v : Word) {n : Nat} (hn : n ≤ 64) : reflect v n &&& mask n = reflect v n :=
  (and_mask_eq_self _ hn).2 fun i hi => by rw [getLsbD_reflect v hn]; simp [show ¬ i < n by omega]

/-- An `UPDATE` reads `LEN` bytes. -/
@[simp] theorem updateBytes_length (base len : BitVec 32) (s : State) : (updateBytes base len s).length = len.toNat := by
  simp [updateBytes]

/-- Without a racing write in its range an `UPDATE` reads `MEM` (20_memory.md R53). -/
theorem updateBytes_unraced {base len : BitVec 32} {s : State} (h : rangeRaced base len s = false) :
    updateBytes base len s = (List.range len.toNat).map fun k => s.mem.read (base.toNat + k) := by
  unfold updateBytes
  refine List.map_congr_left fun k _ => ?_
  simp [updateByte, h]

theorem updateBytes_raced {base len : BitVec 32} {s : State} (h : rangeRaced base len s = true) :
    updateBytes base len s = (List.range len.toNat).map fun k => Config.freeByte (s.draws + k) := by
  unfold updateBytes
  refine List.map_congr_left fun k _ => ?_
  simp [updateByte, h]

@[simp] theorem updateDraws_unraced {base len : BitVec 32} {s : State} (h : rangeRaced base len s = false) :
    updateDraws base len s = 0 := by simp [updateDraws, h]

@[simp] theorem updateDraws_raced {base len : BitVec 32} {s : State} (h : rangeRaced base len s = true) :
    updateDraws base len s = len.toNat := by simp [updateDraws, h]

theorem rangeRaced_eq_false {base len : BitVec 32} {s : State} :
    rangeRaced base len s = false ↔ ∀ w ∈ s.racing, ¬(base.toNat ≤ w.1 ∧ w.1 < base.toNat + len.toNat) := by
  simp [rangeRaced]

theorem rangeRaced_eq_true {base len : BitVec 32} {s : State} :
    rangeRaced base len s = true ↔ ∃ w ∈ s.racing, base.toNat ≤ w.1 ∧ w.1 < base.toNat + len.toNat := by
  simp [rangeRaced]

end Sys2Proof.Machine
end

