-- ==== Sys2Proof/Laws/Engine.lean ====
section
/-! SUPPORT. The fold: its bits, its masking, and the shapes later proofs cite. -/

namespace Sys2Proof.Machine

/-- The bits of one folded register under a legal record (41_crc_engine.md R120). -/
theorem getLsbD_foldBit {c : CfgRegs} (hc : CfgLegal c) (r : Word) (b : Bool) (i : Nat) :
    (foldBit c r b).getLsbD i =
      ((decide (i < c.width.toNat) && decide (1 ≤ i) && r.getLsbD (i - 1)) ^^
        ((r.getLsbD (c.width.toNat - 1) ^^ b) && c.poly.getLsbD i)) := by
  have hw := hc.width_le
  have hs : ((r <<< 1) &&& c.crcMask).getLsbD i =
      (decide (i < c.width.toNat) && decide (1 ≤ i) && r.getLsbD (i - 1)) := by
    rw [BitVec.getLsbD_and, hc.crcMask, getLsbD_mask _ hw, BitVec.getLsbD_shiftLeft]
    by_cases h : i < c.width.toNat
    · by_cases h1 : i < 1
      · simp [h1, show ¬ 1 ≤ i by omega]
      · simp [h, h1, show i < 64 by omega, show 1 ≤ i by omega]
    · simp [h]
  unfold foldBit
  dsimp only
  cases ht : r.getLsbD (c.width.toNat - 1) ^^ b
  · simp [hs]
  · simp [hs, BitVec.getLsbD_xor]

/-- `POLY` has no bit at or above `WIDTH` (10_state.md R24). -/
theorem poly_high {c : CfgRegs} (hc : CfgLegal c) {i : Nat} (hi : c.width.toNat ≤ i) : c.poly.getLsbD i = false := by
  have h := hc.poly
  rw [hc.crcMask, and_mask_eq_self _ hc.width_le] at h
  exact h i hi

/-- Masking closure of one bit (41_crc_engine.md R133): whatever the register held. -/
theorem foldBit_masked {c : CfgRegs} (hc : CfgLegal c) (r : Word) (b : Bool) :
    foldBit c r b &&& c.crcMask = foldBit c r b := by
  rw [hc.crcMask, and_mask_eq_self _ hc.width_le]
  intro i hi
  rw [getLsbD_foldBit hc, poly_high hc hi]
  simp [show ¬ i < c.width.toNat by omega]

theorem foldl_foldBit_masked {c : CfgRegs} (hc : CfgLegal c) {r : Word} (hr : r &&& c.crcMask = r) (bits : List Bool) :
    bits.foldl (foldBit c) r &&& c.crcMask = bits.foldl (foldBit c) r := by
  induction bits generalizing r with
  | nil => exact hr
  | cons b bits ih => exact ih (foldBit_masked hc r b)

theorem fold_nil (c : CfgRegs) (r : Word) : fold c r [] = r := rfl

theorem fold_cons (c : CfgRegs) (r : Word) (d : Byte) (ds : List Byte) : fold c r (d :: ds) = fold c (foldByte c r d) ds := rfl

theorem fold_append (c : CfgRegs) (r : Word) (a b : List Byte) : fold c r (a ++ b) = fold c (fold c r a) b :=
  List.foldl_append

@[simp] theorem foldChunks_nil (c : CfgRegs) (r : Word) : foldChunks c r [] = r := rfl

@[simp] theorem foldChunks_cons (c : CfgRegs) (r : Word) (a : List Byte) (as : List (List Byte)) :
    foldChunks c r (a :: as) = foldChunks c (fold c r a) as := rfl

/-- A byte sequence folds as the bits that enter (41_crc_engine.md R121, R122). -/
theorem fold_eq_foldl_bits (c : CfgRegs) (r : Word) (ds : List Byte) :
    fold c r ds = (ds.flatMap fun d => bitsMsbFirst (inputByte c d)).foldl (foldBit c) r := by
  induction ds generalizing r with
  | nil => rfl
  | cons d ds ih => rw [fold_cons, ih, List.flatMap_cons, List.foldl_append]; rfl

theorem fold_masked {c : CfgRegs} (hc : CfgLegal c) {r : Word} (hr : r &&& c.crcMask = r) (ds : List Byte) :
    fold c r ds &&& c.crcMask = fold c r ds := by
  rw [fold_eq_foldl_bits]
  exact foldl_foldBit_masked hc hr _

theorem finalizeValue_masked (c : CfgRegs) (r : Word) : finalizeValue c r &&& c.crcMask = finalizeValue c r := by
  unfold finalizeValue
  rw [BitVec.and_assoc, BitVec.and_self]

theorem initValue_masked {c : CfgRegs} (hc : CfgLegal c) : initValue c &&& c.crcMask = initValue c := by
  unfold initValue
  split
  · rw [hc.crcMask]; exact reflect_masked _ hc.width_le
  · exact hc.xorIn

end Sys2Proof.Machine
end

