-- ==== Sys2Proof/Laws/Memory.lean ====
section
/-! SUPPORT. Reading after the host's writes, and the canonical form every write keeps. -/

namespace Sys2Proof.Machine

@[simp] theorem lookup_put_same (a : Nat) (b : Byte) (cells : List Host.Cell) :
    Memory.lookup (Memory.put a b cells) a = some b := by
  induction cells with
  | nil => simp [Memory.put, Memory.lookup]
  | cons c cells ih =>
    obtain ⟨x, y⟩ := c
    simp only [Memory.put]
    split
    · simp [Memory.lookup]
    · split
      · simp [Memory.lookup]
      · simp_all [Memory.lookup]

theorem lookup_put_other {a x : Nat} (b : Byte) (cells : List Host.Cell) (h : x ≠ a) :
    Memory.lookup (Memory.put a b cells) x = Memory.lookup cells x := by
  induction cells with
  | nil => simp [Memory.put, Memory.lookup, h]
  | cons c cells ih =>
    obtain ⟨y, z⟩ := c
    simp only [Memory.put]
    split
    · simp [Memory.lookup, h]
    · split
      · simp_all [Memory.lookup]
      · simp [Memory.lookup, ih]

@[simp] theorem lookup_filter_same (a : Nat) (cells : List Host.Cell) :
    Memory.lookup (cells.filter (·.1 ≠ a)) a = none := by
  induction cells with
  | nil => rfl
  | cons c cells ih =>
    obtain ⟨y, z⟩ := c
    by_cases hy : y = a
    · simpa [hy] using ih
    · simp only [ne_eq, hy, not_false_eq_true, decide_true, List.filter_cons_of_pos, Memory.lookup]
      rw [if_neg (Ne.symm hy)]
      exact ih

theorem lookup_filter_other {a x : Nat} (cells : List Host.Cell) (h : x ≠ a) :
    Memory.lookup (cells.filter (·.1 ≠ a)) x = Memory.lookup cells x := by
  induction cells with
  | nil => rfl
  | cons c cells ih =>
    obtain ⟨y, z⟩ := c
    by_cases hy : y = a
    · subst hy
      simp only [ne_eq, not_true_eq_false, decide_false, Bool.false_eq_true, not_false_eq_true, List.filter_cons_of_neg,
        Memory.lookup]
      rw [if_neg h]
      exact ih
    · simp only [ne_eq, hy, not_false_eq_true, decide_true, List.filter_cons_of_pos, Memory.lookup]
      rw [← ih]

@[simp] theorem write_size (m : Memory) (a : Nat) (b : Byte) : (m.write a b).size = m.size := by
  unfold Memory.write; split <;> rfl

theorem read_write_same (m : Memory) {a : Nat} (b : Byte) (h : a < m.size) : (m.write a b).read a = b := by
  simp only [Memory.write, h, if_true, Memory.read]
  split
  · rw [lookup_filter_same]; simp_all
  · simp

theorem read_write_other (m : Memory) {a x : Nat} (b : Byte) (h : x ≠ a) : (m.write a b).read x = m.read x := by
  unfold Memory.write
  split
  · simp only [Memory.read]
    split
    · rw [lookup_filter_other _ h]
    · rw [lookup_put_other _ _ h]
  · rfl

theorem mem_put {p : Host.Cell} {a : Nat} {b : Byte} {cells : List Host.Cell} (h : p ∈ Memory.put a b cells) :
    p = (a, b) ∨ p ∈ cells := by
  induction cells with
  | nil => simpa [Memory.put] using h
  | cons c cells ih =>
    obtain ⟨x, y⟩ := c
    simp only [Memory.put] at h
    split at h
    · simpa using h
    · split at h
      · rcases List.mem_cons.1 h with h | h
        · exact .inl h
        · exact .inr (List.mem_cons_of_mem _ h)
      · rcases List.mem_cons.1 h with h | h
        · exact .inr (h ▸ List.mem_cons_self)
        · exact (ih h).imp_right (List.mem_cons_of_mem _)

theorem pairwise_put {a : Nat} {b : Byte} {cells : List Host.Cell} (h : cells.Pairwise (fun p q => p.1 < q.1)) :
    (Memory.put a b cells).Pairwise (fun p q => p.1 < q.1) := by
  induction cells with
  | nil => simp [Memory.put]
  | cons c cells ih =>
    obtain ⟨x, y⟩ := c
    obtain ⟨hx, ht⟩ := List.pairwise_cons.1 h
    simp only [Memory.put]
    split
    · next hax =>
      refine List.pairwise_cons.2 ⟨fun q hq => ?_, h⟩
      rcases List.mem_cons.1 hq with rfl | hq
      · exact hax
      · exact lt_trans hax (hx q hq)
    · split
      · next hax => exact List.pairwise_cons.2 ⟨fun q hq => by simpa [hax] using hx q hq, ht⟩
      · next hlt hne =>
        refine List.pairwise_cons.2 ⟨fun q hq => ?_, ih ht⟩
        rcases mem_put hq with rfl | hq
        · change x < a; omega
        · exact hx q hq

/-- Every write of the host keeps the canonical form, whatever the address. -/
theorem write_wf {m : Memory} (a : Nat) (b : Byte) (h : m.wf) : (m.write a b).wf := by
  obtain ⟨h1, h2, hs, hlt, hne⟩ := h
  unfold Memory.write
  split
  · next ha =>
    split
    · exact ⟨h1, h2, hs.filter _, fun p hp => hlt p (List.mem_of_mem_filter hp), fun p hp => hne p (List.mem_of_mem_filter hp)⟩
    · next hb =>
      refine ⟨h1, h2, pairwise_put hs, fun p hp => ?_, fun p hp => ?_⟩
      · rcases mem_put hp with rfl | hp
        · exact ha
        · exact hlt p hp
      · rcases mem_put hp with rfl | hp
        · exact hb
        · exact hne p hp
  · exact ⟨h1, h2, hs, hlt, hne⟩

@[simp] theorem writeAll_nil (m : Memory) : m.writeAll [] = m := rfl

@[simp] theorem writeAll_cons (m : Memory) (w : Host.Cell) (ws : List Host.Cell) :
    m.writeAll (w :: ws) = (m.write w.1 w.2).writeAll ws := rfl

@[simp] theorem writeAll_size (m : Memory) (ws : List Host.Cell) : (m.writeAll ws).size = m.size := by
  induction ws generalizing m with
  | nil => rfl
  | cons w ws ih => simp [ih]

theorem writeAll_wf {m : Memory} (ws : List Host.Cell) (h : m.wf) : (m.writeAll ws).wf := by
  induction ws generalizing m with
  | nil => exact h
  | cons w ws ih => exact ih (write_wf w.1 w.2 h)

theorem memSize_range : 1 ≤ Config.memSize ∧ Config.memSize ≤ 2 ^ 32 := by
  have := Config.memTop.isLt
  unfold Config.memSize
  omega

/-- The memory of an instance in which the host has written nothing. -/
theorem empty_wf : Memory.wf ⟨Config.memSize, []⟩ :=
  ⟨memSize_range.1, memSize_range.2, List.Pairwise.nil, by simp, by simp⟩

end Sys2Proof.Machine
end

