-- ==== Sys2Proof/Laws/State.lean ====
section
/-! SUPPORT. What each named update of State leaves in each field, true by `rfl` or by the one case split of `recordError`. -/

namespace Sys2Proof.Machine

/-! ## respond -/

@[simp] theorem respond_cfg (e d s) : (respond e d s).cfg = s.cfg := rfl
@[simp] theorem respond_cfgValid (e d s) : (respond e d s).cfgValid = s.cfgValid := rfl
@[simp] theorem respond_stg (e d s) : (respond e d s).stg = s.stg := rfl
@[simp] theorem respond_phase (e d s) : (respond e d s).phase = s.phase := rfl
@[simp] theorem respond_crcReg (e d s) : (respond e d s).crcReg = s.crcReg := rfl
@[simp] theorem respond_prefinal (e d s) : (respond e d s).prefinal = s.prefinal := rfl
@[simp] theorem respond_syndrome (e d s) : (respond e d s).syndrome = s.syndrome := rfl
@[simp] theorem respond_vskip (e d s) : (respond e d s).vskip = s.vskip := rfl
@[simp] theorem respond_err (e d s) : (respond e d s).err = s.err := rfl
@[simp] theorem respond_mem (e d s) : (respond e d s).mem = s.mem := rfl
@[simp] theorem respond_response (e d s) : (respond e d s).response = some ⟨e, d⟩ := rfl
@[simp] theorem respond_inbox (e d s) : (respond e d s).inbox = s.inbox := rfl
@[simp] theorem respond_racing (e d s) : (respond e d s).racing = s.racing := rfl
@[simp] theorem respond_draws (e d s) : (respond e d s).draws = s.draws := rfl

/-! ## recordError -/

@[simp] theorem recordError_cfg (w e d s) : (recordError w e d s).cfg = s.cfg := by
  unfold recordError; split <;> rfl
@[simp] theorem recordError_cfgValid (w e d s) : (recordError w e d s).cfgValid = s.cfgValid := by
  unfold recordError; split <;> rfl
@[simp] theorem recordError_stg (w e d s) : (recordError w e d s).stg = s.stg := by
  unfold recordError; split <;> rfl
@[simp] theorem recordError_phase (w e d s) : (recordError w e d s).phase = s.phase := by
  unfold recordError; split <;> rfl
@[simp] theorem recordError_crcReg (w e d s) : (recordError w e d s).crcReg = s.crcReg := by
  unfold recordError; split <;> rfl
@[simp] theorem recordError_prefinal (w e d s) : (recordError w e d s).prefinal = s.prefinal := by
  unfold recordError; split <;> rfl
@[simp] theorem recordError_syndrome (w e d s) : (recordError w e d s).syndrome = s.syndrome := by
  unfold recordError; split <;> rfl
@[simp] theorem recordError_vskip (w e d s) : (recordError w e d s).vskip = s.vskip := by
  unfold recordError; split <;> rfl
@[simp] theorem recordError_mem (w e d s) : (recordError w e d s).mem = s.mem := by
  unfold recordError; split <;> rfl
@[simp] theorem recordError_response (w e d s) : (recordError w e d s).response = s.response := by
  unfold recordError; split <;> rfl
@[simp] theorem recordError_inbox (w e d s) : (recordError w e d s).inbox = s.inbox := by
  unfold recordError; split <;> rfl
@[simp] theorem recordError_racing (w e d s) : (recordError w e d s).racing = s.racing := by
  unfold recordError; split <;> rfl
@[simp] theorem recordError_draws (w e d s) : (recordError w e d s).draws = s.draws := by
  unfold recordError; split <;> rfl

theorem recordError_first (w : CmdWord) (e : Code) (d : Word) (s : State) (he : e ≠ .faulted) (hs : s.err.faulted = false) :
    recordError w e d s = { s with err := ⟨true, e, w, d⟩ } := by simp [recordError, he, hs]

theorem recordError_later (w : CmdWord) (e : Code) (d : Word) (s : State) (hs : s.err.faulted = true) :
    recordError w e d s = s := by simp [recordError, hs]

@[simp] theorem recordError_faulted (w : CmdWord) (d : Word) (s : State) : recordError w .faulted d s = s := by
  simp [recordError]

/-! ## raise -/

@[simp] theorem raise_cfg (w e d s) : (raise w e d s).cfg = s.cfg := by simp [raise]
@[simp] theorem raise_cfgValid (w e d s) : (raise w e d s).cfgValid = s.cfgValid := by simp [raise]
@[simp] theorem raise_stg (w e d s) : (raise w e d s).stg = s.stg := by simp [raise]
@[simp] theorem raise_phase (w e d s) : (raise w e d s).phase = s.phase := by simp [raise]
@[simp] theorem raise_crcReg (w e d s) : (raise w e d s).crcReg = s.crcReg := by simp [raise]
@[simp] theorem raise_prefinal (w e d s) : (raise w e d s).prefinal = s.prefinal := by simp [raise]
@[simp] theorem raise_syndrome (w e d s) : (raise w e d s).syndrome = s.syndrome := by simp [raise]
@[simp] theorem raise_vskip (w e d s) : (raise w e d s).vskip = s.vskip := by simp [raise]
@[simp] theorem raise_err (w e d s) : (raise w e d s).err = (recordError w e d s).err := rfl
@[simp] theorem raise_mem (w e d s) : (raise w e d s).mem = s.mem := by simp [raise]
@[simp] theorem raise_response (w e d s) : (raise w e d s).response = some ⟨e, if e = .defect then d else 0⟩ := rfl
@[simp] theorem raise_inbox (w e d s) : (raise w e d s).inbox = s.inbox := by simp [raise]
@[simp] theorem raise_racing (w e d s) : (raise w e d s).racing = s.racing := by simp [raise]
@[simp] theorem raise_draws (w e d s) : (raise w e d s).draws = s.draws := by simp [raise]

/-! ## resetBlock -/

@[simp] theorem resetBlock_cfg (s) : (resetBlock s).cfg = CfgRegs.reset := rfl
@[simp] theorem resetBlock_cfgValid (s) : (resetBlock s).cfgValid = false := rfl
@[simp] theorem resetBlock_stg (s) : (resetBlock s).stg = Staging.reset := rfl
@[simp] theorem resetBlock_phase (s) : (resetBlock s).phase = .idle := rfl
@[simp] theorem resetBlock_crcReg (s) : (resetBlock s).crcReg = 0 := rfl
@[simp] theorem resetBlock_prefinal (s) : (resetBlock s).prefinal = 0 := rfl
@[simp] theorem resetBlock_syndrome (s) : (resetBlock s).syndrome = 0 := rfl
@[simp] theorem resetBlock_vskip (s) : (resetBlock s).vskip = false := rfl
@[simp] theorem resetBlock_err (s) : (resetBlock s).err = ErrRegs.reset := rfl
@[simp] theorem resetBlock_mem (s) : (resetBlock s).mem = s.mem := rfl
@[simp] theorem resetBlock_response (s) : (resetBlock s).response = none := rfl
@[simp] theorem resetBlock_inbox (s) : (resetBlock s).inbox = s.inbox := rfl
@[simp] theorem resetBlock_racing (s) : (resetBlock s).racing = s.racing := rfl
@[simp] theorem resetBlock_draws (s) : (resetBlock s).draws = s.draws := rfl

/-! ## settle -/

@[simp] theorem settle_cfg (s) : (settle s).cfg = s.cfg := rfl
@[simp] theorem settle_cfgValid (s) : (settle s).cfgValid = s.cfgValid := rfl
@[simp] theorem settle_stg (s) : (settle s).stg = s.stg := rfl
@[simp] theorem settle_phase (s) : (settle s).phase = s.phase := rfl
@[simp] theorem settle_crcReg (s) : (settle s).crcReg = s.crcReg := rfl
@[simp] theorem settle_prefinal (s) : (settle s).prefinal = s.prefinal := rfl
@[simp] theorem settle_syndrome (s) : (settle s).syndrome = s.syndrome := rfl
@[simp] theorem settle_vskip (s) : (settle s).vskip = s.vskip := rfl
@[simp] theorem settle_err (s) : (settle s).err = s.err := rfl
@[simp] theorem settle_mem (s) : (settle s).mem = s.mem.writeAll s.racing := rfl
@[simp] theorem settle_response (s) : (settle s).response = s.response := rfl
@[simp] theorem settle_inbox (s) : (settle s).inbox = s.inbox := rfl
@[simp] theorem settle_racing (s) : (settle s).racing = [] := rfl
@[simp] theorem settle_draws (s) : (settle s).draws = s.draws := rfl

end Sys2Proof.Machine
end

