-- ==== Sys2Proof/Laws/Ops.lean ====
section
/-! SUPPORT. For each shared operation, everything it can do, said once. -/

namespace Sys2Proof.Machine

/-! ## The checks -/

@[simp] theorem firstError_nil : firstError [] = none := rfl
@[simp] theorem firstError_pass (cs : List Check) : firstError (none :: cs) = firstError cs := rfl
@[simp] theorem firstError_fail (e : Code × Word) (cs : List Check) : firstError (some e :: cs) = some e := rfl

theorem firstError_eq_none {cs : List Check} : firstError cs = none ↔ ∀ c ∈ cs, c = none := by
  induction cs with
  | nil => simp
  | cons c cs ih => cases c <;> simp [ih]

@[simp] theorem checkFaulted_pass {s : State} (h : s.err.faulted = false) : checkFaulted s = none := by simp [checkFaulted, h]
@[simp] theorem checkFaulted_fail {s : State} (h : s.err.faulted = true) : checkFaulted s = some (.faulted, 0) := by
  simp [checkFaulted, h]

@[simp] theorem checkUnlocked_pass {s : State} (h : s.cfgValid = false) : checkUnlocked s = none := by simp [checkUnlocked, h]
@[simp] theorem checkUnlocked_fail {s : State} (h : s.cfgValid = true) : checkUnlocked s = some (.cfgLocked, 0) := by
  simp [checkUnlocked, h]

@[simp] theorem checkConfigured_pass {s : State} (h : s.cfgValid = true) : checkConfigured s = none := by
  simp [checkConfigured, h]
@[simp] theorem checkConfigured_fail {s : State} (h : s.cfgValid = false) : checkConfigured s = some (.notConfigured, 0) := by
  simp [checkConfigured, h]

@[simp] theorem checkPhase_pass {p : Phase} {s : State} (h : s.phase = p) : checkPhase p s = none := by simp [checkPhase, h]
@[simp] theorem checkPhase_fail {p : Phase} {s : State} (h : s.phase ≠ p) :
    checkPhase p s = some (.phase, s.phase.bits.setWidth 64) := by simp [checkPhase, h]

theorem checkStagedWidth_pass {s : State} (h₁ : 1 ≤ s.stg.width.toNat) (h₂ : s.stg.width.toNat ≤ 64) :
    checkStagedWidth s = none := if_neg (by omega)

theorem checkStagedWidth_fail {s : State} (h : s.stg.width.toNat < 1 ∨ 64 < s.stg.width.toNat) :
    checkStagedWidth s = some (.config, s.stg.width.setWidth 64) := if_pos h

theorem checkReflectWidth_pass {n : BitVec 7} (h₁ : 1 ≤ n.toNat) (h₂ : n.toNat ≤ 64) : checkReflectWidth n = none :=
  if_neg (by omega)

theorem checkRange_pass {base len : BitVec 32} {s : State} (h : len.toNat = 0 ∨ base.toNat + len.toNat ≤ s.mem.size) :
    checkRange base len s = none := if_neg (by omega)

theorem checkRange_fail {base len : BitVec 32} {s : State} (h₁ : 0 < len.toNat) (h₂ : s.mem.size < base.toNat + len.toNat) :
    checkRange base len s = some (.range, BitVec.ofNat 64 (max base.toNat s.mem.size)) := if_pos ⟨h₁, h₂⟩

theorem checkReadIndex_pass {b : Byte} (h : b.toNat ≤ 12) : checkReadIndex b = none := if_neg (by omega)

/-! ## runChecked -/

theorem runChecked_pass {cw : CmdWord} {cs : List Check} {f : State → State} {s : State} (h : firstError cs = none) :
    runChecked cw cs f s = .next (f s) := by simp [runChecked, h]

theorem runChecked_fail {cw : CmdWord} {cs : List Check} {f : State → State} {s : State} {e : Code} {info : Word}
    (h : firstError cs = some (e, info)) : runChecked cw cs f s = .next (raise cw e info s) := by simp [runChecked, h]

/-- A checked command raises its first error or has its effect. -/
theorem runChecked_next {cw : CmdWord} {cs : List Check} {f : State → State} {s t : State}
    (h : runChecked cw cs f s = .next t) :
    (∃ e info, firstError cs = some (e, info) ∧ t = raise cw e info s) ∨ firstError cs = none ∧ t = f s := by
  cases hc : firstError cs with
  | none => rw [runChecked_pass hc] at h; injection h with h; exact .inr ⟨rfl, h.symm⟩
  | some e =>
    obtain ⟨e, info⟩ := e
    rw [runChecked_fail hc] at h; injection h with h
    exact .inl ⟨e, info, rfl, h.symm⟩

/-! ## raise -/

theorem raise_first (w : CmdWord) (e : Code) (d : Word) (s : State) (he : e ≠ .faulted) (hs : s.err.faulted = false) :
    raise w e d s =
      { s with err := ⟨true, e, w, d⟩, response := some ⟨e, if e = .defect then d else 0⟩ } := by
  simp [raise, recordError_first w e d s he hs, respond]

theorem raise_later (w : CmdWord) (e : Code) (d : Word) (s : State) (hs : s.err.faulted = true) :
    raise w e d s = { s with response := some ⟨e, if e = .defect then d else 0⟩ } := by
  simp [raise, recordError_later w e d s hs, respond]

@[simp] theorem raise_faulted (w : CmdWord) (d : Word) (s : State) :
    raise w .faulted d s = { s with response := some ⟨.faulted, 0⟩ } := by
  simp [raise, respond]

/-! ## onNext and the ports -/

@[simp] theorem onNext_next (f : State → State) (s : State) : onNext f (.next s) = .next (f s) := rfl
@[simp] theorem onNext_fault (f : State → State) (r : Fault) : onNext f (.fault r) = .fault r := rfl
@[simp] theorem onNext_refused (f : State → State) (r : Refusal) : onNext f (.refused r) = .refused r := rfl

theorem onNext_eq_next {f : State → State} {x : Result} {t : State} (h : onNext f x = .next t) :
    ∃ u, x = .next u ∧ t = f u := by
  cases x with
  | next u => injection h with h; exact ⟨u, rfl, h.symm⟩
  | fault r => cases h
  | refused r => cases h

@[simp] theorem writeOutside_nil (m : Memory) : writeOutside m [] = none := rfl

theorem writeOutside_eq_none {m : Memory} {ws : List Host.Cell} : writeOutside m ws = none ↔ ∀ w ∈ ws, w.1 < m.size := by
  simp [writeOutside, List.find?_eq_none]

theorem runWord_legal {cw : CmdWord} {op : Word} {i : Instr} (s : State) (h : decode cw op = .ok i) :
    runWord cw op s = exec i s := by simp [runWord, h]

theorem runWord_illegal {cw : CmdWord} {op : Word} {e : Illegal} (s : State) (h : decode cw op = .error e) :
    runWord cw op s = .next (raise cw .illegal 0 s) := by simp [runWord, h]

/-- What a step that answers a next state did. -/
theorem step_cases {s t : State} (h : step s = .next t) :
    (s.inbox = [] ∧ t = s) ∨
    (∃ cw op during rest u, s.inbox = .command cw op during :: rest ∧ (∀ w ∈ during, w.1 < s.mem.size) ∧
      runWord cw op { s with inbox := rest, racing := during } = .next u ∧ t = settle u) ∨
    (∃ a b rest, s.inbox = .memWrite a b :: rest ∧ a < s.mem.size ∧
      t = { s with inbox := rest, mem := s.mem.write a b }) ∨
    (∃ rest, s.inbox = .hardReset :: rest ∧ t = resetBlock { s with inbox := rest }) ∨
    (∃ cw op rest, s.inbox = .resetDuring cw op :: rest ∧ t = resetBlock { s with inbox := rest }) := by
  unfold step portStep at h
  split at h
  · next hi => injection h with h; exact .inl ⟨hi, h.symm⟩
  · next e rest hi =>
    refine .inr ?_
    cases e with
    | command cw op during =>
      simp only [eventStep, commandStep] at h
      split at h
      · cases h
      · next hw =>
        obtain ⟨u, hu, rfl⟩ := onNext_eq_next h
        exact .inl ⟨cw, op, during, rest, u, hi, writeOutside_eq_none.1 hw, hu, rfl⟩
    | memWrite a b =>
      simp only [eventStep, hostWriteStep] at h
      split at h
      · next ha => injection h with h; exact .inr (.inl ⟨a, b, rest, hi, ha, h.symm⟩)
      · cases h
    | hardReset => injection h with h; exact .inr (.inr (.inl ⟨rest, hi, h.symm⟩))
    | resetDuring cw op => injection h with h; exact .inr (.inr (.inr ⟨cw, op, rest, hi, h.symm⟩))

end Sys2Proof.Machine
end

