-- ==== Sys2Proof/Laws/PerInstr.lean ====
section
/-! SUPPORT. The family OpcodeByte: what the command word of each command has in its fixed bits (30_encoding.md R71, R74). -/

namespace Sys2Proof.Laws.OpcodeByte

/-- `CW[7:0]` is the opcode, and the bits reserved in every command, 15 and 31:26, are 0. -/
def Statement (i : Instr) : Prop :=
  fieldOpc (encodeCw i) = i.opcode ∧ (encodeCw i).getLsbD 15 = false ∧ ∀ k, 26 ≤ k → (encodeCw i).getLsbD k = false

/-- The opcode field of a word written as something above its opcode byte. -/
theorem fieldOpc_append (x : BitVec 24) (y : Byte) : fieldOpc (x ++ y) = y := by
  apply BitVec.eq_of_getLsbD_eq
  intro i hi
  simp only [fieldOpc, BitVec.getLsbD_extractLsb', BitVec.getLsbD_append]
  simp [hi]

/-- A command without fields in its word. -/
theorem of_constant {i : Instr} (w : CmdWord) (h : encodeCw i = w) (h₁ : fieldOpc w = i.opcode) (h₂ : w.getLsbD 15 = false)
    (h₃ : w.toNat < 2 ^ 26) : Statement i := by
  subst h
  exact ⟨h₁, h₂, fun k hk => Nat.testBit_lt_two_pow (lt_of_lt_of_le h₃ (Nat.pow_le_pow_right (by decide) hk))⟩

theorem cfgw (n : BitVec 7) (ri ro : Bool) : Statement (.cfgw n ri ro) := by
  refine ⟨fieldOpc_append _ _, ?_, fun k hk => ?_⟩ <;> simp only [encodeCw, BitVec.getLsbD_append]
  · simp
  · simp [show ¬ k < 8 by omega, show ¬ k - 8 < 7 by omega, show ¬ k - 8 - 7 < 1 by omega, show ¬ k - 8 - 7 - 1 < 8 by omega,
      show ¬ k - 8 - 7 - 1 - 8 < 1 by omega, show ¬ k - 8 - 7 - 1 - 8 - 1 < 1 by omega]
theorem cfgpoly (op : Word) : Statement (.cfgpoly op) := of_constant 0x02 rfl rfl (by decide) (by decide)
theorem cfgxin (op : Word) : Statement (.cfgxin op) := of_constant 0x03 rfl rfl (by decide) (by decide)
theorem cfgxout (op : Word) : Statement (.cfgxout op) := of_constant 0x04 rfl rfl (by decide) (by decide)
theorem cfgcommit : Statement .cfgcommit := of_constant 0x05 rfl rfl (by decide) (by decide)
theorem init : Statement .init := of_constant 0x10 rfl rfl (by decide) (by decide)
theorem update (base len : BitVec 32) : Statement (.update base len) := of_constant 0x11 rfl rfl (by decide) (by decide)
theorem updateb (b : Byte) : Statement (.updateb b) := by
  refine ⟨fieldOpc_append _ _, ?_, fun k hk => ?_⟩ <;> simp only [encodeCw, BitVec.getLsbD_append]
  · simp
  · simp [show ¬ k < 8 by omega, show ¬ k - 8 < 8 by omega, show ¬ k - 8 - 8 < 8 by omega]
theorem final : Statement .final := of_constant 0x13 rfl rfl (by decide) (by decide)
theorem reflect (n : BitVec 7) (op : Word) : Statement (.reflect n op) := by
  refine ⟨fieldOpc_append _ _, ?_, fun k hk => ?_⟩ <;> simp only [encodeCw, BitVec.getLsbD_append]
  · simp
  · simp [show ¬ k < 8 by omega, show ¬ k - 8 < 7 by omega]
theorem verify : Statement .verify := of_constant 0x30 rfl rfl (by decide) (by decide)
theorem verifyi (op : Word) : Statement (.verifyi op) := of_constant 0x31 rfl rfl (by decide) (by decide)
theorem read (b : Byte) : Statement (.read b) := by
  refine ⟨fieldOpc_append _ _, ?_, fun k hk => ?_⟩ <;> simp only [encodeCw, BitVec.getLsbD_append]
  · simp
  · simp [show ¬ k < 8 by omega, show ¬ k - 8 < 8 by omega, show ¬ k - 8 - 8 < 8 by omega]
theorem sreset : Statement .sreset := of_constant 0xFF rfl rfl (by decide) (by decide)

end Sys2Proof.Laws.OpcodeByte
end

