-- ==== Sys2Proof/Tests/Slice0.lean ====
section
/-! SUPPORT. Tests: expected values come from spec/95_test_vectors.md (the vector's name stands in the comment) or are written out
from the encodings of 30_encoding.md; then one witness theorem for each statement with hypotheses. -/

namespace Sys2Proof.Tests

open Sys2Proof Sys2Proof.Machine Sys2Proof.Statements

/-! ## Small states -/

/-- The common start state's `MEM`: "123456789" at 0x100. -/
def mem0 : Memory :=
  ⟨0x1000, [(0x100, 0x31), (0x101, 0x32), (0x102, 0x33), (0x103, 0x34), (0x104, 0x35), (0x105, 0x36), (0x106, 0x37),
    (0x107, 0x38), (0x108, 0x39)]⟩

def start : State := { State.reset with mem := mem0 }

/-- Staged by `cfgw w, ri, ro`, `cfgpoly p`, `cfgxin xi`, `cfgxout xo`. -/
def staged (w : BitVec 7) (p xi xo : Word) (ri ro : Bool) : State := { start with stg := ⟨w, ri, ro, p, xi, xo⟩ }

/-- Configured, in phase `ph`, with `CRC_REG` and `PREFINAL`. -/
def configured (w : BitVec 7) (p xi xo : Word) (ri ro : Bool) (ph : Phase) (crc pre : Word) : State :=
  { start with
    stg := ⟨w, ri, ro, p, xi, xo⟩, cfg := commitRegs ⟨w, ri, ro, p, xi, xo⟩, cfgValid := true,
    phase := ph, crcReg := crc, prefinal := pre }

/-- E1, CRC-32. -/
def e1 : Phase → Word → Word → State := configured 32 0x04C11DB7 0xFFFFFFFF 0xFFFFFFFF true true
/-- E2, CRC-16/ARC. -/
def e2 : Phase → Word → Word → State := configured 16 0x8005 0 0 true true
/-- E3, width 7. -/
def e3 : Phase → Word → Word → State := configured 7 0x09 0 0 false false
/-- E6, width 8. -/
def e6 : Phase → Word → Word → State := configured 8 0x07 0 0 false false

/-- Faulted by `init` at reset (K2). -/
def faultedStart : State := { start with err := ⟨true, .notConfigured, 0x10, 0⟩ }

/-- One step on a command: the response and a reading of the state. -/
def after {α : Type} (s : State) (cw : CmdWord) (op : Word) (f : State → α) : Option (BitVec 4 × Word × α) :=
  match step { s with inbox := [.command cw op []] } with
  | .next t => t.response.map fun r => (r.rstat.bits, r.rdata, f t)
  | _ => none

/-! ## Decoding: words written out from the patterns of R74 -/

theorem test_decode_cfgw : decode 0b00000011000000000010000000000001 0 = .ok (.cfgw 32 true true) := rfl
theorem test_decode_cfgw_ri : decode 0b00000001000000000000000100000001 0 = .ok (.cfgw 1 true false) := rfl
theorem test_decode_cfgpoly : decode 0b00000000000000000000000000000010 5 = .ok (.cfgpoly 5) := rfl
theorem test_decode_cfgxin : decode 0b00000000000000000000000000000011 6 = .ok (.cfgxin 6) := rfl
theorem test_decode_cfgxout : decode 0b00000000000000000000000000000100 7 = .ok (.cfgxout 7) := rfl
theorem test_decode_cfgcommit : decode 0b00000000000000000000000000000101 8 = .ok .cfgcommit := rfl
theorem test_decode_init : decode 0b00000000000000000000000000010000 9 = .ok .init := rfl
theorem test_decode_update : decode 0b00000000000000000000000000010001 0x0000000900000100 = .ok (.update 0x100 9) := rfl
theorem test_decode_updateb : decode 0b00000000001100010000000000010010 0 = .ok (.updateb 0x31) := rfl
theorem test_decode_final : decode 0b00000000000000000000000000010011 0 = .ok .final := rfl
theorem test_decode_reflect : decode 0b00000000000000000010000000100000 3 = .ok (.reflect 32 3) := rfl
theorem test_decode_verify : decode 0b00000000000000000000000000110000 3 = .ok .verify := rfl
theorem test_decode_verifyi : decode 0b00000000000000000000000000110001 3 = .ok (.verifyi 3) := rfl
theorem test_decode_read : decode 0b00000000000010110000000001000000 3 = .ok (.read 11) := rfl
theorem test_decode_sreset : decode 0b00000000000000000000000011111111 3 = .ok .sreset := rfl
/-- C7, K10, K6, K5, K4, K3. -/
theorem test_decode_illegal :
    decode 0x00010801 0 = .error (.reservedBitSet 0x01) ∧ decode 0x01000012 0 = .error (.reservedBitSet 0x12) ∧
    decode 0x00008010 0 = .error (.reservedBitSet 0x10) ∧ decode 0x80000010 0 = .error (.reservedBitSet 0x10) ∧
    decode 0x00000000 0 = .error (.unassignedOpcode 0x00) ∧ decode 0x00000006 0 = .error (.unassignedOpcode 0x06) :=
  ⟨rfl, rfl, rfl, rfl, rfl, rfl⟩
theorem test_table_word : decodeTableWord 32 0x00310012 = some (.updateb 0x31) ∧ decodeTableWord 32 0x12F = none := ⟨rfl, rfl⟩
theorem test_table_word_operand : decodeTableWord 96 (0x0000000900000100 * 2 ^ 32 + 0x11) = some (.update 0x100 9) := rfl
/-- The opcode map is unambiguous: no word meets two rows' masks and matches. -/
theorem test_rows_disjoint :
    opcodeRows.Pairwise fun r q => r.pattern &&& (r.mask &&& q.mask) ≠ q.pattern &&& (r.mask &&& q.mask) := by decide

/-! ## Well-formedness: an ill-formed term for each check; no term of Instr is ill formed (R73) -/

theorem test_wf_every_command : ∀ i : Instr, i.wf = true := wf_all
theorem test_wf_refuses_lines :
    (AsmLine.cfgw 128 0 0).wf = false ∧ (AsmLine.cfgw 0 2 0).wf = false ∧ (AsmLine.cfgw 0 0 2).wf = false ∧
    (AsmLine.cfgpoly (2 ^ 64)).wf = false ∧ (AsmLine.cfgxin (2 ^ 64)).wf = false ∧ (AsmLine.cfgxout (2 ^ 64)).wf = false ∧
    (AsmLine.update (2 ^ 32) 0).wf = false ∧ (AsmLine.update 0 (2 ^ 32)).wf = false ∧ (AsmLine.updateb 256).wf = false ∧
    (AsmLine.reflect (2 ^ 64) 0).wf = false ∧ (AsmLine.reflect 0 128).wf = false ∧ (AsmLine.verifyi (2 ^ 64)).wf = false ∧
    (AsmLine.read 256).wf = false := by decide
theorem test_wf_refuses_pseudo_lines :
    (AsmLine.configure 128 0 0 0 0 0).wf = false ∧ (AsmLine.configure 0 (2 ^ 64) 0 0 0 0).wf = false ∧
    (AsmLine.configure 0 0 (2 ^ 64) 0 0 0).wf = false ∧ (AsmLine.configure 0 0 0 (2 ^ 64) 0 0).wf = false ∧
    (AsmLine.configure 0 0 0 0 2 0).wf = false ∧ (AsmLine.configure 0 0 0 0 0 2).wf = false ∧
    (AsmLine.crc (2 ^ 32) 0).wf = false ∧ (AsmLine.crc 0 (2 ^ 32)).wf = false ∧
    (AsmLine.updatestr [49, 128]).wf = false := by decide
theorem test_wf_refuses_memory :
    ¬ Memory.wf ⟨0, []⟩ ∧ ¬ Memory.wf ⟨2 ^ 32 + 1, []⟩ ∧ ¬ Memory.wf ⟨8, [(2, 1), (1, 1)]⟩ ∧ ¬ Memory.wf ⟨8, [(1, 1), (1, 2)]⟩ ∧
    ¬ Memory.wf ⟨8, [(8, 1)]⟩ ∧ ¬ Memory.wf ⟨8, [(1, 0)]⟩ := by decide
theorem test_wf_memory : mem0.wf := by decide

/-! ## Configuration (section 2.1) -/

/-- The example of R101. -/
theorem test_cfgw : after start 0x03002001 0 (·.stg) = some (0, 0, ⟨32, true, true, 0, 0, 0⟩) := by decide
/-- C6. -/
theorem test_cfgpoly_locked :
    after (e6 .idle 0 0) 0x02 1 (fun t => (statusWord t, t.err.cw, t.cfg.poly)) = some (3, 0, 0x39, 0x02, 7) := by decide
theorem test_cfgxin : after start 0x03 0x1FFFF (·.stg.xin) = some (0, 0, 0x1FFFF) := by decide
theorem test_cfgxout : after start 0x04 0x30000 (·.stg.xout) = some (0, 0, 0x30000) := by decide
/-- C8. -/
theorem test_cfgcommit_masks :
    after (staged 16 0x18005 0x1FFFF 0x30000 true true) 0x05 0 (fun t => (cfgWord t.cfg, t.cfg.poly, t.cfg.xorIn, t.cfg.xorOut))
      = some (0, 0, 0x310, 0x8005, 0xFFFF, 0) := by decide
/-- C3 and R105's boundary table, width 64. -/
theorem test_cfgcommit_width_64 :
    after (staged 64 0xFFFFFFFFFFFFFFFF 0 0 false false) 0x05 0 (fun t => (t.cfg.poly, t.cfg.crcMask, t.cfg.msbMask, t.cfg.shift))
      = some (0, 0, 0xFFFFFFFFFFFFFFFF, 0xFFFFFFFFFFFFFFFF, 0x8000000000000000, 0) := by decide
/-- C2. -/
theorem test_cfgcommit_refuses_65 :
    after (staged 65 0 0 0 false false) 0x05 0 (fun t => (statusWord t, t.err.cw, t.err.info)) = some (2, 0, 0x28, 0x05, 0x41) := by
  decide

/-! ## Engine (section 2.2) -/

/-- E11: the literal init contract. -/
theorem test_init_reflects : after (configured 16 0x1021 0xB2AA 0 true true .idle 0 0) 0x10 0 (·.phase) = some (0, 0x554D, .pre) := by
  decide
/-- E26. -/
theorem test_init_unconfigured : after start 0x10 0 statusWord = some (4, 0, 0x48) := by decide
/-- E1. -/
theorem test_update_crc32 :
    after (e1 .pre 0xFFFFFFFF 0) 0x11 0x0000000900000100 (·.crcReg) = some (0, 0x9B63D02C, 0x9B63D02C) := by decide +kernel
/-- E23. -/
theorem test_update_no_wrap :
    after (e6 .pre 0 0) 0x11 0xFFFFFFFFFFFFFFFF (fun t => (t.err.info, t.crcReg)) = some (6, 0, 0xFFFFFFFF, 0) := by decide
/-- B12, width 64. -/
theorem test_updateb_width_64 :
    after (configured 64 0x42F0E1EBA9EA3693 0 0 false false .pre 0 0) 0x00800012 0 (·.crcReg)
      = some (0, 0xF6FAE5C07D3274CD, 0xF6FAE5C07D3274CD) := by decide
/-- E2's register trace. -/
theorem test_updateb_reflected : after (e2 .pre 0 0) 0x00310012 0 (·.crcReg) = some (0, 0x832B, 0x832B) := by decide
/-- E1. -/
theorem test_final_crc32 :
    after (e1 .pre 0x9B63D02C 0) 0x13 0 (fun t => (t.prefinal, t.crcReg, statusWord t))
      = some (0, 0xCBF43926, 0x9B63D02C, 0xCBF43926, 0x5) := by decide
/-- E25. -/
theorem test_final_twice : after (e6 .final 0 0) 0x13 0 (fun t => (t.err.info, statusWord t)) = some (5, 0, 2, 0x5D) := by decide
/-- A byte raced by the host: the step runs, and the host's byte is in `MEM` afterwards (R63). -/
theorem test_update_raced :
    (match step { e6 .pre 0 0 with inbox := [.command 0x11 0x0000000100000100 [(0x100, 0xAA)]] } with
      | .next t => some (t.mem.read 0x100, t.draws, t.racing)
      | _ => none) = some (0xAA, 1, []) := by decide

/-! ## Reflection (section 2.3) -/

/-- F16. -/
theorem test_reflect_17 : after start 0x00001120 0x12345 (·.crcReg) = some (0, 0x14589, 0) := by decide
/-- F19. -/
theorem test_reflect_65 : after start 0x00004120 1 (·.err.info) = some (7, 0, 0x41) := by decide

/-! ## Verifier (section 2.4) -/

/-- V1. -/
theorem test_verify_crc32 :
    after (e1 .final 0xCBF43926 0x9B63D02C) 0x30 0 (fun t => (t.syndrome, t.vskip)) = some (0, 0, 0, false) := by decide +kernel
/-- V7 and P3: width 7 is skipped. -/
theorem test_verifyi_skipped :
    after (e3 .final 0x75 0x75) 0x31 0x1234 (fun t => (t.syndrome, statusWord t)) = some (0, 0, 0, 0x105) := by decide
/-- V6. -/
theorem test_verifyi_defect :
    after (e6 .final 0xF4 0xF4) 0x31 0xF5 (fun t => (t.syndrome, t.err.info, statusWord t))
      = some (8, 0x07, 0x07, 0x07, 0x8D) := by decide
/-- E28. -/
theorem test_verify_in_pre : after (e1 .pre 0xFFFFFFFF 0x9B63D02C) 0x30 0 statusWord = some (5, 0, 0x5B) := by decide

/-! ## Control, decode and faults (section 2.5) -/

/-- K8. -/
theorem test_read_cfg : after (e1 .final 0xCBF43926 0x9B63D02C) 0x00010040 0 (·.phase) = some (0, 0x320, .final) := by decide
/-- K2: an error of `READ` while faulted is not recorded. -/
theorem test_read_13_faulted : after faultedStart 0x000D0040 0 statusWord = some (7, 0, 0x48) := by decide
/-- K3. -/
theorem test_illegal_faulted : after faultedStart 0x00000006 0 (fun t => (statusWord t, t.err.cw)) = some (1, 0, 0x48, 0x10) := by
  decide
/-- K7. -/
theorem test_sreset : after (e2 .final 0xBB3D 0xBCDD) 0xFF 0 (fun t => (t.cfg, t.crcReg, t.stg, t.mem)) =
    some (0, 0, CfgRegs.reset, 0, Staging.reset, mem0) := by decide
theorem test_host_write_outside :
    step { start with inbox := [.memWrite 0x1000 1] } = .fault (.hostWriteOutsideMem 0x1000) := rfl
theorem test_first_step_after_reset :
    step (State.reset.withFetchWord 32 0x10) = .next { State.reset with err := ⟨true, .notConfigured, 0x10, 0⟩, response := some ⟨.notConfigured, 0⟩ } :=
  rfl

/-! ## Assembler (R78, P1) -/

theorem test_assemble_update : assembleText "update 0x100, 9 ; nine bytes".toList = some [(0x11, 0x0000000900000100)] := by decide
theorem test_assemble_read_name : assembleText "read err_cw".toList = some [(0x000B0040, 0)] := by decide
theorem test_assemble_too_wide : assembleText "updateb 256".toList = none := by decide

/-! ## Witnesses: a concrete state and operands that meet the hypotheses, clause by clause -/

theorem legal_e2 : CfgLegal (e2 .final 0 0).cfg := by constructor <;> decide
theorem legal_e3 : CfgLegal (e3 .final 0 0).cfg := by constructor <;> decide
/-- Width 8 with polynomial 0 (E15). -/
def c15 : CfgRegs := commitRegs ⟨8, false, false, 0, 0, 0⟩
theorem legal_c15 : CfgLegal c15 := by constructor <;> decide
/-- Width 64, the upper boundary (E8). -/
def c8 : CfgRegs := commitRegs ⟨64, true, true, 0x42F0E1EBA9EA3693, 0xFFFFFFFFFFFFFFFF, 0xFFFFFFFFFFFFFFFF⟩
theorem legal_c8 : CfgLegal c8 := by constructor <;> decide
/-- Width 1, the lower boundary (E10). -/
def c10 : CfgRegs := commitRegs ⟨1, false, false, 1, 0, 0⟩
theorem legal_c10 : CfgLegal c10 := by constructor <;> decide

/-- A state in phase FINAL that meets the invariant (E2). -/
theorem inv_final : Inv (e2 .final 0xBB3D 0xBCDD) where
  committed _ := legal_e2
  uncommitted h := by cases h
  idle h := by cases h
  crcReg_masked := by decide
  prefinal_masked := by decide
  syndrome_masked := by decide
  final_pair _ := by decide
  vskip_width h := by cases h
  defect h := absurd rfl h
  unfaulted _ := rfl
  faulted h := by cases h
  mem := by decide
  quiet := rfl

theorem witness_DecodeOfEncode : (Instr.read 255).wf = true ∧ readsOperand (Instr.read 255).opcode = false := by decide
theorem witness_EncodeOfDecode :
    decode 0x03007F01 0 = .ok (.cfgw 127 true true) ∧
    decode 0x31 5 = .ok (.verifyi 5) ∧ readsOperand (Instr.verifyi 5).opcode = true := ⟨rfl, rfl, rfl⟩
theorem witness_RowSelectedByMaskAndMatch :
    (0x12, 0xFF00FFFF, 0x00000012) ∈ opcodeMap ∧ (0x00FF0012 : CmdWord) &&& 0xFF00FFFF = 0x00000012 := by decide
theorem witness_TwoKindsOfIllegalWord :
    Unassigned ((0x000000FE : CmdWord).extractLsb' 0 8).toNat ∧ Unassigned ((0x00000000 : CmdWord).extractLsb' 0 8).toNat ∧
    (¬ Unassigned ((0x00000110 : CmdWord).extractLsb' 0 8).toNat ∧ ∀ row ∈ opcodeMap, (0x00000110 : CmdWord) &&& row.2.1 ≠ row.2.2) ∧
    (0x00008010 : CmdWord).getLsbD 15 = true ∧ (0x04000010 : CmdWord).extractLsb' 26 6 ≠ 0 := by
  refine ⟨?_, ?_, ⟨?_, ?_⟩, ?_, ?_⟩
  · decide
  · decide
  · decide
  · simp [opcodeMap]
  · decide
  · decide
theorem witness_OperandUse :
    (0x00007F20 : CmdWord) &&& 0xFFFF80FF = 0x20 ∧ readsOperand ((0x00000010 : CmdWord).extractLsb' 0 8) = false := by decide
theorem witness_AssembledLinesAreEncodings :
    (127 < 128 ∧ 1 < 2) ∧ 2 ^ 64 - 1 < 2 ^ 64 ∧ 2 ^ 32 - 1 < 2 ^ 32 ∧ 255 < 256 ∧
    (128 ≤ 128 ∨ 2 ≤ 0 ∨ 2 ≤ 0) ∧ (128 ≤ 127 ∨ 2 ≤ 2 ∨ 2 ≤ 0) ∧ (128 ≤ 127 ∨ 2 ≤ 1 ∨ 2 ≤ 2) ∧ 2 ^ 64 ≤ 2 ^ 64 ∧
    (2 ^ 32 ≤ 2 ^ 32 ∨ 2 ^ 32 ≤ 0) ∧ (2 ^ 32 ≤ 0 ∨ 2 ^ 32 ≤ 2 ^ 32) ∧ 256 ≤ 256 ∧
    (2 ^ 64 ≤ 2 ^ 64 ∨ 128 ≤ 127) ∧ (2 ^ 64 ≤ 2 ^ 64 - 1 ∨ 128 ≤ 128) ∧
    (128 ≤ 128 ∨ 2 ^ 64 ≤ 0 ∨ 2 ^ 64 ≤ 0 ∨ 2 ^ 64 ≤ 0 ∨ 2 ≤ 0 ∨ 2 ≤ 0) ∧ ∃ b ∈ [0x31, 128], 128 ≤ b := by decide
theorem witness_PseudoInstructionsExpand :
    ((AsmLine.cfgw 16 1 1).assemble ≠ none ∧ (AsmLine.cfgpoly 0x8005).assemble ≠ none ∧ (AsmLine.cfgxin 0).assemble ≠ none ∧
      (AsmLine.cfgxout 0).assemble ≠ none ∧ AsmLine.cfgcommit.assemble ≠ none) ∧
    (AsmLine.init.assemble ≠ none ∧ (AsmLine.update 0x100 9).assemble ≠ none ∧ AsmLine.final.assemble ≠ none) ∧
    ∀ b ∈ [0x31, 127], b < 128 := by decide

theorem witness_StepRunsTheDecodedCommand :
    ({ start with inbox := [.command 0x10 0 [(0xFFF, 1)], .hardReset] } : State).inbox = .command 0x10 0 [(0xFFF, 1)] :: [.hardReset] ∧
    (∀ w ∈ [((0xFFF, 1) : Host.Cell)], w.1 < start.mem.size) ∧ decode 0x10 0 = .ok .init := ⟨rfl, by decide, rfl⟩
theorem witness_IllegalWordRaisesIllegal :
    ({ start with inbox := [.command 0x80000010 0 [(0xFFF, 1)]] } : State).inbox = .command 0x80000010 0 [(0xFFF, 1)] :: [] ∧
    (∀ w ∈ [((0xFFF, 1) : Host.Cell)], w.1 < start.mem.size) ∧
    ∀ row ∈ opcodeMap, (0x80000010 : CmdWord) &&& row.2.1 ≠ row.2.2 := ⟨rfl, by decide, by simp [opcodeMap]⟩
theorem witness_WaitingHoldsTheState : start.inbox = [] := rfl
theorem witness_ThreeResetsAreOne :
    ({ start with inbox := [.hardReset] } : State).inbox = .hardReset :: [] ∧
    ({ start with inbox := [.resetDuring 0x10 0] } : State).inbox = .resetDuring 0x10 0 :: [] := ⟨rfl, rfl⟩
theorem witness_WhatWorksAfterReset :
    IsEngineCommand .init ∧ IsStaging (.cfgw 0 true false) ∧ (1 ≤ (64 : BitVec 7).toNat ∧ (64 : BitVec 7).toNat ≤ 64) ∧
    (12 : Byte).toNat ≤ 12 := ⟨trivial, trivial, by decide, by decide⟩
theorem witness_HostWriteIsInMem :
    ({ start with inbox := [.memWrite 0xFFF 7] } : State).inbox = .memWrite 0xFFF 7 :: [] ∧ 0xFFF < start.mem.size :=
  ⟨rfl, by decide⟩

theorem witness_CfgwStagesWidthAndFlags :
    (0x03007F01 : CmdWord) &&& 0xFCFF80FF = 0x00000001 ∧ faultedStart.err.faulted = true ∧
    ((e6 .idle 0 0).err.faulted = false ∧ (e6 .idle 0 0).cfgValid = true) ∧
    (start.err.faulted = false ∧ start.cfgValid = false) := by decide
theorem witness_StagingWordsTakeTheOperand :
    faultedStart.err.faulted = true ∧ ((e6 .idle 0 0).err.faulted = false ∧ (e6 .idle 0 0).cfgValid = true) ∧
    (start.err.faulted = false ∧ start.cfgValid = false) := by decide
theorem witness_CommitValidatesMasksDerivesLocks :
    faultedStart.err.faulted = true ∧ ((e6 .idle 0 0).err.faulted = false ∧ (e6 .idle 0 0).cfgValid = true) ∧
    (start.err.faulted = false ∧ start.cfgValid = false ∧ start.stg.width.toNat < 1) ∧
    ((staged 65 0 0 0 true true).err.faulted = false ∧ (staged 65 0 0 0 true true).cfgValid = false ∧
      64 < (staged 65 0 0 0 true true).stg.width.toNat) ∧
    ((staged 64 0 0 0 true true).err.faulted = false ∧ (staged 64 0 0 0 true true).cfgValid = false ∧
      1 ≤ (staged 64 0 0 0 true true).stg.width.toNat ∧ (staged 64 0 0 0 true true).stg.width.toNat ≤ 64) ∧
    (staged 1 0 0 0 true true).stg.width.toNat = 1 := by decide
theorem witness_LastStagedValueWins :
    (∀ i ∈ [Instr.cfgw 8 false false, .cfgw 16 true true], IsStaging i) ∧ start.err.faulted = false ∧ start.cfgValid = false ∧
    1 ≤ (lastStaged cfgwValue [.cfgw 8 false false, .cfgw 16 true true] (0, false, false)).1.toNat ∧
    (lastStaged cfgwValue [.cfgw 8 false false, .cfgw 16 true true] (0, false, false)).1.toNat ≤ 64 := by
  simp [IsStaging, lastStaged, cfgwValue, start, State.reset, ErrRegs.reset]
theorem witness_CommittedConfigurationIsImmutable :
    (e6 .pre 0 0).cfgValid = true ∧ ∃ t, step { e6 .pre 0 0 with inbox := [.command 0x05 0 []] } = .next t := ⟨rfl, _, rfl⟩

theorem witness_InitSetsTheRegister :
    faultedStart.err.faulted = true ∧ (start.err.faulted = false ∧ start.cfgValid = false) ∧
    ((e6 .final 0 0).err.faulted = false ∧ (e6 .final 0 0).cfgValid = true ∧ (e6 .final 0 0).cfg.reflectIn = false) ∧
    ((e2 .idle 0 0).err.faulted = false ∧ (e2 .idle 0 0).cfgValid = true ∧ (e2 .idle 0 0).cfg.reflectIn = true) := by decide
/-- E21 and the last byte of `MEM`, E20, E19. -/
theorem witness_UpdateFoldsTheRange :
    faultedStart.err.faulted = true ∧ (start.err.faulted = false ∧ start.cfgValid = false) ∧
    ((e6 .idle 0 0).err.faulted = false ∧ (e6 .idle 0 0).cfgValid = true ∧ (e6 .idle 0 0).phase ≠ .pre) ∧
    (Ready .pre (e6 .pre 0 0) ∧ 0 < (2 : BitVec 32).toNat ∧ (e6 .pre 0 0).mem.size < (0xFFF : BitVec 32).toNat + (2 : BitVec 32).toNat) ∧
    (Ready .pre (e6 .pre 0 0) ∧ (0xFFF : BitVec 32).toNat + (1 : BitVec 32).toNat ≤ (e6 .pre 0 0).mem.size ∧
      ¬ RacesRange (e6 .pre 0 0) 0xFFF 1) ∧
    (0 : BitVec 32).toNat = 0 ∧ ¬ RacesRange { e6 .pre 0 0 with racing := [(0x101, 0)] } 0x100 1 := by decide
theorem witness_RacedUpdateFoldsFreeBytes :
    Ready .pre { e6 .pre 0 0 with racing := [(0x108, 0)] } ∧
    (0x100 : BitVec 32).toNat + (9 : BitVec 32).toNat ≤ ({ e6 .pre 0 0 with racing := [(0x108, 0)] } : State).mem.size ∧
    RacesRange { e6 .pre 0 0 with racing := [(0x108, 0)] } 0x100 9 := by decide
theorem witness_UpdatebFoldsTheByte :
    (0x00FF0012 : CmdWord) &&& 0xFF00FFFF = 0x00000012 ∧
    (e6 .pre 0 0).cfg.reflectIn = false ∧ (e2 .pre 0 0).cfg.reflectIn = true ∧ faultedStart.err.faulted = true ∧
    (start.err.faulted = false ∧ start.cfgValid = false) ∧
    ((e6 .final 0 0).err.faulted = false ∧ (e6 .final 0 0).cfgValid = true ∧ (e6 .final 0 0).phase ≠ .pre) ∧
    (Ready .pre (e6 .pre 0 0) ∧ (0x108 : BitVec 32).toNat < (e6 .pre 0 0).mem.size ∧
      (e6 .pre 0 0).mem.read (0x108 : BitVec 32).toNat = 0x39 ∧ (e6 .pre 0 0).racing = []) := by decide
theorem witness_FinalCapturesAndFinalizes :
    faultedStart.err.faulted = true ∧ (start.err.faulted = false ∧ start.cfgValid = false) ∧
    ((e6 .final 0 0).err.faulted = false ∧ (e6 .final 0 0).cfgValid = true ∧ (e6 .final 0 0).phase ≠ .pre) ∧
    Ready .pre (e6 .pre 0 0) := by decide
theorem witness_SplitUpdateIsTheSame :
    Ready .pre (e2 .pre 0 0) ∧ (e2 .pre 0 0).mem.wf ∧ (e2 .pre 0 0).racing = [] ∧
    (4 : BitVec 32).toNat + (5 : BitVec 32).toNat < 2 ^ 32 ∧
    (0xFF7 : BitVec 32).toNat + (4 : BitVec 32).toNat + (5 : BitVec 32).toNat ≤ (e2 .pre 0 0).mem.size := by decide
theorem witness_StreamingEquivalence :
    (e2 .idle 0 0).err.faulted = false ∧ (e2 .idle 0 0).cfgValid = true ∧ (e2 .idle 0 0).racing = [] ∧
    [Instr.update 0x100 2, .updateb 0x33, .update 0xFFF 1, .update 0xFFFFFFFF 0].mapM (chunkBytes (e2 .idle 0 0).mem) =
      some [[0x31, 0x32], [0x33], [0], []] := by decide
theorem witness_SubByteFormulationAgrees :
    CfgLegal (e3 .pre 0 0).cfg ∧ (e3 .pre 0 0).cfg.width.toNat < 8 ∧ (0x7F : Word) &&& (e3 .pre 0 0).cfg.crcMask = 0x7F ∧
    0 < (e3 .pre 0 0).cfg.shift.toNat ∧ CfgLegal c10 := ⟨legal_e3, by decide, by decide, by decide, legal_c10⟩
theorem witness_ZeroPolynomialForgets :
    CfgLegal c15 ∧ c15.poly = 0 ∧ c15.width.toNat ≤ 8 * [(0x31 : Byte)].length := ⟨legal_c15, rfl, by decide⟩
theorem witness_FoldIsPolynomialDivision : CfgLegal c8 ∧ (0xFFFFFFFFFFFFFFFF : Word) &&& c8.crcMask = 0xFFFFFFFFFFFFFFFF :=
  ⟨legal_c8, by decide⟩

theorem witness_ReflectReversesTheLowBits :
    (0x00007F20 : CmdWord) &&& 0xFFFF80FF = 0x00000020 ∧ faultedStart.err.faulted = true ∧
    (start.err.faulted = false ∧ (0 : BitVec 7).toNat < 1) ∧ 64 < (65 : BitVec 7).toNat ∧
    (1 ≤ (1 : BitVec 7).toNat ∧ (64 : BitVec 7).toNat ≤ 64) := by decide
theorem witness_ReflectionLaws : 1 ≤ 1 ∧ 64 ≤ 64 ∧ (0xFF : Word).toNat < 2 ^ 8 := by decide

theorem witness_VerifyChecksItsOwnChecksum :
    faultedStart.err.faulted = true ∧ (start.err.faulted = false ∧ start.cfgValid = false) ∧
    ((e2 .pre 0 0).err.faulted = false ∧ (e2 .pre 0 0).cfgValid = true ∧ (e2 .pre 0 0).phase ≠ .final) ∧
    (Ready .final (e3 .final 0 0) ∧ (e3 .final 0 0).cfg.width.toNat % 8 ≠ 0) ∧
    (Ready .final (e6 .final 0xF4 0xF4) ∧ (e6 .final 0xF4 0xF4).cfg.width.toNat % 8 = 0 ∧
      feedBack (e6 .final 0xF4 0xF4).cfg 0xF4 (unfinalize (e6 .final 0xF4 0xF4).cfg 0xF4) = 0) ∧
    (Ready .final (e6 .final 0xF5 0xF4) ∧
      feedBack (e6 .final 0xF5 0xF4).cfg 0xF4 (unfinalize (e6 .final 0xF5 0xF4).cfg 0xF5) ≠ 0) := by decide
theorem witness_VerifyiChecksTheOperand :
    faultedStart.err.faulted = true ∧ (start.err.faulted = false ∧ start.cfgValid = false) ∧
    ((e2 .pre 0 0).err.faulted = false ∧ (e2 .pre 0 0).cfgValid = true ∧ (e2 .pre 0 0).phase ≠ .final) ∧
    (Ready .final (e3 .final 0 0) ∧ (e3 .final 0 0).cfg.width.toNat % 8 ≠ 0) ∧
    (Ready .final (e6 .final 0xF4 0xF4) ∧ (e6 .final 0xF4 0xF4).cfg.width.toNat % 8 = 0 ∧
      feedBack (e6 .final 0xF4 0xF4).cfg 0xF4 (unfinalize (e6 .final 0xF4 0xF4).cfg 0xF4) = 0) ∧
    feedBack (e6 .final 0xF4 0xF4).cfg 0xF4 (unfinalize (e6 .final 0xF4 0xF4).cfg 0xF5) ≠ 0 ∧
    (CfgLegal (e2 .final 0 0).cfg ∧
      (0xFFFFFFFFFFFFBB3D : Word) &&& (e2 .final 0 0).cfg.crcMask = 0xBB3D &&& (e2 .final 0 0).cfg.crcMask) ∧
    (∃ t, exec .verify (e3 .final 0x75 0x75) = .next t) ∧
    (CfgLegal (e2 .final 0 0).cfg ∧ (e2 .final 0 0xBCDD).cfg.width.toNat % 8 = 0 ∧ (e2 .final 0 0xBCDD).cfg.poly.getLsbD 0 = true ∧
      (e2 .final 0 0xBCDD).prefinal &&& (e2 .final 0 0xBCDD).cfg.crcMask = (e2 .final 0 0xBCDD).prefinal ∧
      (0xBB3C : Word) &&& (e2 .final 0 0xBCDD).cfg.crcMask ≠ finalizeValue (e2 .final 0 0xBCDD).cfg 0xBCDD) :=
  ⟨by decide, by decide, by decide, by decide, by decide, by decide, ⟨legal_e2, by decide⟩, ⟨_, rfl⟩,
    legal_e2, by decide, by decide, by decide, by decide⟩
theorem witness_FeedBackEntersTheChecksumBits : CfgLegal c8 ∧ c8.width.toNat % 8 = 0 := ⟨legal_c8, rfl⟩
theorem witness_ZeroSyndromeProperty :
    (CfgLegal c8 ∧ c8.width.toNat % 8 = 0 ∧ (0xA0636704226C4566 : Word) &&& c8.crcMask = 0xA0636704226C4566 ∧
      c8.poly.getLsbD 0 = true) ∧
    (CfgLegal c15 ∧ c15.width.toNat % 8 = 0 ∧ (0xEA : Word) &&& c15.crcMask = 0xEA ∧ c15.poly.getLsbD 0 = false ∧ c15.poly = 0) :=
  ⟨⟨legal_c8, by decide, by decide, by decide⟩, legal_c15, by decide, by decide, by decide, rfl⟩
theorem witness_VerifyNeverFindsADefect : Inv (e2 .final 0xBB3D 0xBCDD) ∧ Ready .final (e2 .final 0xBB3D 0xBCDD) :=
  ⟨inv_final, by decide⟩

theorem witness_ReadAnswersTheRegister :
    (0x00FF0040 : CmdWord) &&& 0xFF00FFFF = 0x00000040 ∧ (12 < (13 : Byte).toNat ∧ start.err.faulted = false) ∧
    faultedStart.err.faulted = true := by decide

theorem witness_FaultedBlockRefuses : faultedStart.err.faulted = true ∧ ¬ IsRead .init ∧ Instr.init ≠ .sreset :=
  ⟨rfl, id, by decide⟩
theorem witness_LockedConfigurationRaises :
    (e6 .final 0 0).err.faulted = false ∧ (e6 .final 0 0).cfgValid = true ∧ IsConfigCommand .cfgcommit := ⟨rfl, rfl, trivial⟩
theorem witness_UnconfiguredEngineRaises :
    (start.err.faulted = false ∧ start.cfgValid = false ∧ IsEngineCommand (.verifyi 0)) ∧
    (¬ IsEngineCommand (.reflect 8 0) ∧ ∃ t, exec (.reflect 8 0) start = .next t) := ⟨⟨rfl, rfl, trivial⟩, id, _, rfl⟩
theorem witness_WrongPhaseRaises :
    (neededPhase .verify = some .final ∧ (e6 .pre 0 0).err.faulted = false ∧ (e6 .pre 0 0).cfgValid = true ∧
      (e6 .pre 0 0).phase ≠ .final) ∧
    (neededPhase .init = none ∧ ∃ t, exec .init (e6 .final 0 0) = .next t) := ⟨by decide, rfl, _, rfl⟩
/-- E21 and E20. -/
theorem witness_RangeErrorExactly :
    Ready .pre (e6 .pre 0 0) ∧
    (∃ t, exec (.update 0xFFF 2) (e6 .pre 0 0) = .next t ∧ t.response = some ⟨.range, 0⟩) ∧
    ∃ t, exec (.update 0xFFF 1) (e6 .pre 0 0) = .next t := ⟨by decide, ⟨_, rfl, rfl⟩, _, rfl⟩
theorem witness_FirstErrorIsKept :
    faultedStart.err.faulted = true ∧ (0x000D0040 : CmdWord) ≠ 0x000000FF ∧ ∃ t, runWord 0x000D0040 0 faultedStart = .next t :=
  ⟨rfl, by decide, _, rfl⟩
theorem witness_ErrorsArePrecise :
    ∃ t, runWord 0x10 0 start = .next t ∧ t.response = some ⟨.notConfigured, 0⟩ ∧ Code.notConfigured ≠ .ok ∧
      Code.notConfigured ≠ .defect := ⟨_, rfl, rfl, by decide, by decide⟩
/-- V6, the defect clause of ErrorsArePrecise. -/
theorem witness_ErrorsArePrecise_defect :
    (match runWord 0x31 0xF5 (e6 .final 0xF4 0xF4) with
      | .next t => t.response
      | _ => none) = some ⟨.defect, 0x07⟩ := by decide
theorem witness_FirstErrorIsRecorded :
    start.err.faulted = false ∧ (∃ t, runWord 0x000D0040 0 start = .next t ∧ t.response = some ⟨.arg, 0⟩) ∧
    (∃ t, runWord 0x00000040 0 start = .next t ∧ t.response = some ⟨.ok, 0⟩) ∧ (0x00000040 : CmdWord) ≠ 0x000000FF :=
  ⟨rfl, ⟨_, rfl, rfl⟩, ⟨_, rfl, rfl⟩, by decide⟩
theorem witness_ErrorDataIsZeroOrTheSyndrome :
    ∃ t, runWord 0x80000010 0 start = .next t ∧ t.response = some ⟨.illegal, 0⟩ ∧ Code.illegal ≠ .ok := ⟨_, rfl, rfl, by decide⟩
theorem witness_CommandsKeepTheRestOfTheState : ∃ t, exec .final (e2 .pre 0xBCDD 0) = .next t := ⟨_, rfl⟩
theorem witness_NoCommandWritesMem : ∃ t, exec (.update 0x100 9) (e2 .pre 0 0) = .next t := ⟨_, rfl⟩
theorem witness_StepKeepsTheInvariant :
    Inv (e2 .final 0xBB3D 0xBCDD) ∧ ∃ t, step (e2 .final 0xBB3D 0xBCDD) = .next t := ⟨inv_final, _, rfl⟩

end Sys2Proof.Tests
end

section
/-! Scope (00_scope.md R7, R8): what a step does with a command, and that no command touches the host's writes in flight. -/

namespace Sys2Proof.Machine

/-! ## Commands leave the writes in flight alone -/

@[simp] theorem verifyEffect_racing (cw : CmdWord) (checksum : Word) (s : State) :
    (verifyEffect cw checksum s).racing = s.racing := by
  unfold verifyEffect
  dsimp only
  split
  · exact raise_racing ..
  · rfl

theorem runChecked_racing {cw : CmdWord} {cs : List Check} {f : State → State} {s t : State}
    (h : runChecked cw cs f s = .next t) (hf : (f s).racing = s.racing) : t.racing = s.racing := by
  rcases runChecked_next h with ⟨e, info, -, rfl⟩ | ⟨-, rfl⟩
  · exact raise_racing ..
  · exact hf

/-- Neither an error nor an effect of a command changes `racing`: only the port writes it (20_memory.md R63). -/
theorem exec_racing {i : Instr} {s t : State} (h : exec i s = .next t) : t.racing = s.racing := by
  cases i with
  | verify => exact runChecked_racing h (verifyEffect_racing ..)
  | verifyi op => exact runChecked_racing h (verifyEffect_racing ..)
  | sreset => injection h with h; exact h ▸ rfl
  | cfgw | cfgpoly | cfgxin | cfgxout | cfgcommit | init | update | updateb | final | reflect | read =>
    simp only [exec] at h
    exact runChecked_racing h rfl

/-! ## The step that takes a command -/

/-- Two updates that agree on the next state a result holds answer alike. -/
theorem onNext_congr {f g : State → State} {x : Result} (h : ∀ t, x = .next t → f t = g t) : onNext f x = onNext g x := by
  cases x with
  | next t => exact congrArg _ (h t rfl)
  | fault r => rfl
  | refused r => rfl

/-- With every write in flight inside `MEM`, a command step runs the word and then delivers the response (R7, 20_memory.md R62). -/
theorem step_command {s : State} {cw : CmdWord} {op : Word} {during : List Host.Cell} {rest : List HostEvent}
    (hin : s.inbox = .command cw op during :: rest) (hmem : ∀ w ∈ during, w.1 < s.mem.size) :
    step s = onNext settle (runWord cw op { s with inbox := rest, racing := during }) := by
  simp only [step, portStep, hin, eventStep, commandStep, writeOutside_eq_none.2 hmem]

/-- Settles O9: the command leaves `racing` as the port set it, so what `settle` writes to `MEM` is `during`. -/
theorem stepRunsTheDecodedCommand : Obligations.StepRunsTheDecodedCommand := by
  intro s cw op during rest i hin hmem hdec
  rw [step_command hin hmem, runWord_legal _ hdec]
  refine onNext_congr fun t ht => ?_
  have hracing : t.racing = during := exec_racing ht
  simp only [settle, hracing, Memory.writeAll]

end Sys2Proof.Machine
end

section
/-! What a command can do, said once for all fourteen (60_exceptions.md R211, R212): its checks, its effect, and the two ways in
which it answers. -/

namespace Sys2Proof.Machine

/-! ## No check answers the code of success -/

/-- A check that fails names an error. -/
def NeverOk (c : Check) : Prop := ∀ d, c ≠ some (.ok, d)

theorem checkFaulted_neverOk (s : State) : NeverOk (checkFaulted s) := by simp [NeverOk, checkFaulted]
theorem checkUnlocked_neverOk (s : State) : NeverOk (checkUnlocked s) := by simp [NeverOk, checkUnlocked]
theorem checkStagedWidth_neverOk (s : State) : NeverOk (checkStagedWidth s) := by simp [NeverOk, checkStagedWidth]
theorem checkConfigured_neverOk (s : State) : NeverOk (checkConfigured s) := by simp [NeverOk, checkConfigured]
theorem checkPhase_neverOk (p : Phase) (s : State) : NeverOk (checkPhase p s) := by simp [NeverOk, checkPhase]
theorem checkRange_neverOk (base len : BitVec 32) (s : State) : NeverOk (checkRange base len s) := by
  simp [NeverOk, checkRange]
theorem checkReflectWidth_neverOk (n : BitVec 7) : NeverOk (checkReflectWidth n) := by simp [NeverOk, checkReflectWidth]
theorem checkReadIndex_neverOk (b : Byte) : NeverOk (checkReadIndex b) := by simp [NeverOk, checkReadIndex]

theorem firstError_neverOk {cs : List Check} (h : ∀ c ∈ cs, NeverOk c) : NeverOk (firstError cs) := by
  induction cs with
  | nil => intro d hd; cases hd
  | cons c cs ih =>
    obtain ⟨hc, hcs⟩ := List.forall_mem_cons.1 h
    cases c with
    | none => exact ih hcs
    | some e => exact hc

/-! ## When the checks pass -/

theorem firstError_append_eq_none {as bs : List Check} :
    firstError (as ++ bs) = none ↔ firstError as = none ∧ firstError bs = none := by
  simp only [firstError_eq_none, List.forall_mem_append]

theorem checkFaulted_eq_none {s : State} : checkFaulted s = none ↔ s.err.faulted = false := by simp [checkFaulted]
theorem checkUnlocked_eq_none {s : State} : checkUnlocked s = none ↔ s.cfgValid = false := by simp [checkUnlocked]
theorem checkConfigured_eq_none {s : State} : checkConfigured s = none ↔ s.cfgValid = true := by simp [checkConfigured]
theorem checkPhase_eq_none {p : Phase} {s : State} : checkPhase p s = none ↔ s.phase = p := by simp [checkPhase]
theorem checkStagedWidth_eq_none {s : State} :
    checkStagedWidth s = none ↔ 1 ≤ s.stg.width.toNat ∧ s.stg.width.toNat ≤ 64 := by
  simp [checkStagedWidth, Nat.one_le_iff_ne_zero]

theorem cfgChecks_pass {s : State} (h : firstError (cfgChecks s) = none) : s.err.faulted = false ∧ s.cfgValid = false := by
  simpa [cfgChecks, firstError_eq_none, checkFaulted_eq_none, checkUnlocked_eq_none] using h

theorem engineChecks_pass {p : Phase} {s : State} (h : firstError (engineChecks p s) = none) :
    s.err.faulted = false ∧ s.cfgValid = true ∧ s.phase = p := by
  simpa [engineChecks, firstError_eq_none, checkFaulted_eq_none, checkConfigured_eq_none, checkPhase_eq_none] using h

/-! ## Raising -/

/-- Raising an error writes the response, and beside it the fault fields when it is the first error (60_exceptions.md R213,
R216). -/
theorem raise_cases (cw : CmdWord) (e : Code) (info : Word) (s : State) :
    ∃ r, raise cw e info s = { s with response := r } ∨
      e ≠ .faulted ∧ s.err.faulted = false ∧ raise cw e info s = { s with err := ⟨true, e, cw, info⟩, response := r } := by
  cases hf : s.err.faulted with
  | true => exact ⟨_, .inl (raise_later _ _ _ _ hf)⟩
  | false =>
    by_cases he : e = .faulted
    · subst he; exact ⟨_, .inl (raise_faulted ..)⟩
    · exact ⟨_, .inr ⟨he, rfl, raise_first _ _ _ _ he hf⟩⟩

/-! ## Checks and effect of each command -/

/-- The checks of a command, in R211's order. `SRESET` has none. -/
def checksOf (i : Instr) (s : State) : List Check :=
  match i with
  | .cfgw .. | .cfgpoly _ | .cfgxin _ | .cfgxout _ => cfgChecks s
  | .cfgcommit => cfgChecks s ++ [checkStagedWidth s]
  | .init => [checkFaulted s, checkConfigured s]
  | .update base len => engineChecks .pre s ++ [checkRange base len s]
  | .updateb _ | .final => engineChecks .pre s
  | .reflect n _ => [checkFaulted s, checkReflectWidth n]
  | .verify | .verifyi _ => engineChecks .final s
  | .read b => [checkReadIndex b]
  | .sreset => []

/-- What a command does when its checks pass (R211 step 6). -/
def effectOf (i : Instr) (s : State) : State :=
  match i with
  | .cfgw n ri ro => respond .ok 0 { s with stg := { s.stg with width := n, ri := ri, ro := ro } }
  | .cfgpoly op => respond .ok 0 { s with stg := { s.stg with poly := op } }
  | .cfgxin op => respond .ok 0 { s with stg := { s.stg with xin := op } }
  | .cfgxout op => respond .ok 0 { s with stg := { s.stg with xout := op } }
  | .cfgcommit => respond .ok 0 { s with cfg := commitRegs s.stg, cfgValid := true }
  | .init => respond .ok (initValue s.cfg) { s with crcReg := initValue s.cfg, phase := .pre }
  | .update base len => updateEffect base len s
  | .updateb b => respond .ok (foldByte s.cfg s.crcReg b) { s with crcReg := foldByte s.cfg s.crcReg b }
  | .final =>
    respond .ok (finalizeValue s.cfg s.crcReg)
      { s with prefinal := s.crcReg, crcReg := finalizeValue s.cfg s.crcReg, phase := .final }
  | .reflect n op => respond .ok (reflect op n.toNat) s
  | .verify => verifyEffect (encodeCw .verify) s.crcReg s
  | .verifyi op => verifyEffect (encodeCw (.verifyi op)) op s
  | .read b => respond .ok (readRegister s b.toNat) s
  | .sreset => respond .ok 0 (resetBlock s)

/-- Every command is its checks and its effect. -/
theorem exec_eq_runChecked (i : Instr) (s : State) : exec i s = runChecked (encodeCw i) (checksOf i s) (effectOf i) s := by
  cases i <;> rfl

theorem checksOf_neverOk (i : Instr) (s : State) : NeverOk (firstError (checksOf i s)) := by
  refine firstError_neverOk ?_
  cases i <;>
    simp [checksOf, cfgChecks, engineChecks, checkFaulted_neverOk, checkUnlocked_neverOk, checkStagedWidth_neverOk,
      checkConfigured_neverOk, checkPhase_neverOk, checkRange_neverOk, checkReflectWidth_neverOk, checkReadIndex_neverOk]

/-- A command raises the first error its checks find, which is not `OK`, or has its effect. -/
theorem exec_next {i : Instr} {s t : State} (h : exec i s = .next t) :
    (∃ e info, firstError (checksOf i s) = some (e, info) ∧ e ≠ .ok ∧ t = raise (encodeCw i) e info s) ∨
      firstError (checksOf i s) = none ∧ t = effectOf i s := by
  rw [exec_eq_runChecked] at h
  refine (runChecked_next h).imp_left ?_
  rintro ⟨e, info, he, rfl⟩
  exact ⟨e, info, he, fun hok => checksOf_neverOk i s info (hok ▸ he), rfl⟩

end Sys2Proof.Machine
end

section
/-! 10_state.md R42: the state each command leaves unchanged. -/

namespace Sys2Proof.Machine

open Sys2Proof.Statements

/-- Raising an error writes the fault fields and the response only (60_exceptions.md R212). -/
theorem raise_eq_update (cw : CmdWord) (e : Code) (info : Word) (s : State) :
    raise cw e info s = { s with err := (raise cw e info s).err, response := (raise cw e info s).response } := by
  obtain ⟨r, h | ⟨-, -, h⟩⟩ := raise_cases cw e info s
  · rw [h]
  · rw [h]

/-- A verification writes `SYNDROME`, `VSKIP`, the fault fields and the response only (43_syndrome_verify.md R165). -/
theorem verifyEffect_eq_update (cw : CmdWord) (checksum : Word) (s : State) :
    verifyEffect cw checksum s =
      { s with
        syndrome := (verifyEffect cw checksum s).syndrome, vskip := (verifyEffect cw checksum s).vskip,
        err := (verifyEffect cw checksum s).err, response := (verifyEffect cw checksum s).response } := by
  unfold verifyEffect
  dsimp only
  split
  · rw [raise_eq_update]
  · rfl

/-- Every row of R42 lets a command other than `SRESET` write the fault fields and the response. -/
theorem keeps_of_err_response {i : Instr} {s t : State} (hi : i ≠ .sreset)
    (h : t = { s with err := t.err, response := t.response }) : Keeps i s t := by
  rw [h]
  cases i with
  | sreset => exact absurd rfl hi
  | _ => rfl

theorem effectOf_keeps (i : Instr) (s : State) : Keeps i s (effectOf i s) := by
  cases i with
  | verify => exact verifyEffect_eq_update ..
  | verifyi op => exact verifyEffect_eq_update ..
  | _ => rfl

/-- Settles O50: an error writes the fault fields and the response only, and each effect what its row names. -/
theorem commandsKeepTheRestOfTheState : Obligations.CommandsKeepTheRestOfTheState := by
  intro i s t h
  rcases exec_next h with ⟨e, info, he, -, rfl⟩ | ⟨-, rfl⟩
  · refine keeps_of_err_response ?_ (raise_eq_update ..)
    rintro rfl
    cases he
  · exact effectOf_keeps i s

end Sys2Proof.Machine
end

section
/-! 10_state.md R29 to R39: every step keeps the invariant. While a command runs the host's writes may be in flight, so the
commands are held to the invariant with those set aside. -/

namespace Sys2Proof.Machine

/-- The invariant, but for the host's writes in flight. -/
def InvInFlight (s : State) : Prop := Inv { s with racing := [] }

theorem inv_iff {s : State} : Inv s ↔ InvInFlight s ∧ s.racing = [] :=
  ⟨fun h => ⟨{ h with quiet := rfl }, h.quiet⟩, fun h => { h.1 with quiet := h.2 }⟩

/-- Before the first error the syndrome is 0: a nonzero one is recorded as the defect (43_syndrome_verify.md R169). -/
theorem InvInFlight.syndrome_eq_zero {s : State} (h : InvInFlight s) (hf : s.err.faulted = false) : s.syndrome = 0 := by
  by_contra hs
  obtain ⟨hcode, -⟩ := h.defect hs
  rw [h.unfaulted hf] at hcode
  cases hcode

/-! ## Responses, errors and resets -/

theorem InvInFlight.respond {s : State} (h : InvInFlight s) (e : Code) (d : Word) : InvInFlight (respond e d s) :=
  { h with }

/-- Recording a first error keeps the invariant: the syndrome is still 0. -/
theorem InvInFlight.raise {s : State} (h : InvInFlight s) {e : Code} (he : e ≠ .ok) (cw : CmdWord) (info : Word) :
    InvInFlight (raise cw e info s) := by
  obtain ⟨r, hr | ⟨hfaulted, hf, hr⟩⟩ := raise_cases cw e info s
  · rw [hr]
    exact { h with }
  · rw [hr]
    exact
      { h with
        defect := fun hs => absurd (h.syndrome_eq_zero hf) hs
        unfaulted := nofun
        faulted := fun _ => ⟨he, hfaulted⟩ }

/-- The reset state meets the invariant whatever canonical `MEM` holds (70_reset_and_hazards.md R231). -/
theorem resetBlock_invInFlight {s : State} (h : s.mem.wf) : InvInFlight (resetBlock s) where
  committed := nofun
  uncommitted _ := ⟨rfl, rfl⟩
  idle _ := ⟨rfl, rfl, rfl, rfl⟩
  crcReg_masked := BitVec.zero_and
  prefinal_masked := BitVec.zero_and
  syndrome_masked := BitVec.zero_and
  final_pair := nofun
  vskip_width := nofun
  defect hs := absurd rfl hs
  unfaulted _ := rfl
  faulted := nofun
  mem := h
  quiet := rfl

/-! ## Configuration -/

theorem and_mask_and_mask (v m : Word) : v &&& m &&& m = v &&& m := by rw [BitVec.and_assoc, BitVec.and_self]

theorem masked_of_eq_zero {v : Word} (h : v = 0) (m : Word) : v &&& m = v := by rw [h]; exact BitVec.zero_and

/-- The record stored for a legal staged width is legal (40_configuration.md R105, R109). -/
theorem commitRegs_legal {g : Staging} (hpos : 1 ≤ g.width.toNat) (hle : g.width.toNat ≤ 64) : CfgLegal (commitRegs g) where
  width_pos := hpos
  width_le := hle
  crcMask := rfl
  msbMask := rfl
  shift := rfl
  poly := and_mask_and_mask ..
  xorIn := and_mask_and_mask ..
  xorOut := and_mask_and_mask ..

/-- A commit happens in phase IDLE, where every capture is still 0. -/
theorem InvInFlight.cfgcommit {s : State} (h : InvInFlight s) (hpass : firstError (checksOf .cfgcommit s) = none) :
    InvInFlight (effectOf .cfgcommit s) := by
  obtain ⟨hcfg, hw⟩ := firstError_append_eq_none.1 hpass
  obtain ⟨-, hv⟩ := cfgChecks_pass hcfg
  obtain ⟨hpos, hle⟩ := checkStagedWidth_eq_none.1 (firstError_eq_none.1 hw _ (List.mem_singleton_self _))
  obtain ⟨-, hidle⟩ := h.uncommitted hv
  obtain ⟨hcrc, hpre, hsyn, hskip⟩ := h.idle hidle
  exact
    { h with
      committed := fun _ => commitRegs_legal hpos hle
      uncommitted := nofun
      crcReg_masked := masked_of_eq_zero hcrc _
      prefinal_masked := masked_of_eq_zero hpre _
      syndrome_masked := masked_of_eq_zero hsyn _
      final_pair := fun hfinal => absurd (hidle.symm.trans hfinal) (by decide)
      vskip_width := fun hskip' => absurd (hskip.symm.trans hskip') (by decide) }

/-! ## Engine -/

/-- A masked value may be written to `CRC_REG` in phase PRE of a configured block; `UPDATE` advances `draws` beside it. -/
theorem InvInFlight.accumulate {s : State} (h : InvInFlight s) (hv : s.cfgValid = true) {r : Word}
    (hr : r &&& s.cfg.crcMask = r) (draws : Nat) :
    InvInFlight { s with crcReg := r, phase := .pre, draws := draws } :=
  { h with
    uncommitted := fun hv' => absurd (hv.symm.trans hv') (by decide)
    idle := nofun
    crcReg_masked := hr
    final_pair := nofun }

theorem InvInFlight.fold_masked {s : State} (h : InvInFlight s) (hv : s.cfgValid = true) (bytes : List Byte) :
    fold s.cfg s.crcReg bytes &&& s.cfg.crcMask = fold s.cfg s.crcReg bytes :=
  Machine.fold_masked (h.committed hv) h.crcReg_masked bytes

theorem InvInFlight.init {s : State} (h : InvInFlight s) (hpass : firstError (checksOf .init s) = none) :
    InvInFlight (effectOf .init s) := by
  have hv : s.cfgValid = true := by
    simp only [checksOf, firstError_eq_none, List.forall_mem_cons] at hpass
    obtain ⟨-, hconfigured, -⟩ := hpass
    exact checkConfigured_eq_none.1 hconfigured
  exact (h.accumulate hv (initValue_masked (h.committed hv)) s.draws).respond _ _

/-- Folding any bytes into `CRC_REG` in phase PRE keeps the invariant. -/
theorem InvInFlight.foldInto {s : State} (h : InvInFlight s) (hpass : firstError (engineChecks .pre s) = none)
    (bytes : List Byte) (draws : Nat) :
    InvInFlight { s with crcReg := fold s.cfg s.crcReg bytes, draws := draws } := by
  obtain ⟨-, hv, hp⟩ := engineChecks_pass hpass
  have hfold := h.accumulate hv (h.fold_masked hv bytes) draws
  rwa [← hp] at hfold

/-- `FINAL` captures a pair that belongs together (41_crc_engine.md R128). -/
theorem InvInFlight.final {s : State} (h : InvInFlight s) (hpass : firstError (checksOf .final s) = none) :
    InvInFlight (effectOf .final s) := by
  obtain ⟨-, hv, -⟩ := engineChecks_pass hpass
  exact
    { h with
      uncommitted := fun hv' => absurd (hv.symm.trans hv') (by decide)
      idle := nofun
      crcReg_masked := finalizeValue_masked ..
      prefinal_masked := h.crcReg_masked
      final_pair := fun _ => rfl }

/-! ## Verifier -/

/-- The syndrome is a fold from a masked register, or 0 when verification is skipped (43_syndrome_verify.md R160, R163). -/
theorem syndrome_masked {c : CfgRegs} (hc : CfgLegal c) {pre : Word} (hpre : pre &&& c.crcMask = pre) (checksum : Word) :
    (syndrome c pre checksum).1 &&& c.crcMask = (syndrome c pre checksum).1 := by
  unfold syndrome
  split
  · exact BitVec.zero_and
  · exact fold_masked hc hpre _

/-- `VSKIP` says that the width is no multiple of 8 (R161). -/
theorem width_of_syndrome_skip {c : CfgRegs} {pre checksum : Word} (h : (syndrome c pre checksum).2 = true) :
    c.width.toNat % 8 ≠ 0 := by
  unfold syndrome at h
  split at h
  · next hskip => simpa [skipVerify] using hskip
  · cases h

theorem verifyEffect_good {cw : CmdWord} {checksum : Word} {s : State} (h : (syndrome s.cfg s.prefinal checksum).1 = 0) :
    verifyEffect cw checksum s =
      respond .ok 0 { s with syndrome := 0, vskip := (syndrome s.cfg s.prefinal checksum).2 } := by
  simp [verifyEffect, h]

/-- A nonzero syndrome is recorded as the block's first error (60_exceptions.md R208). -/
theorem verifyEffect_defect {cw : CmdWord} {checksum : Word} {s : State} (hf : s.err.faulted = false)
    (h : (syndrome s.cfg s.prefinal checksum).1 ≠ 0) :
    verifyEffect cw checksum s =
      respond .defect (syndrome s.cfg s.prefinal checksum).1
        { s with
          syndrome := (syndrome s.cfg s.prefinal checksum).1, vskip := (syndrome s.cfg s.prefinal checksum).2,
          err := ⟨true, .defect, cw, (syndrome s.cfg s.prefinal checksum).1⟩ } :=
  (if_pos h).trans (raise_first _ _ _ _ (by decide) hf)

/-- A verification leaves a syndrome of 0, or the recorded defect. -/
theorem InvInFlight.verify {s : State} (h : InvInFlight s) (hpass : firstError (engineChecks .final s) = none) (cw : CmdWord)
    (checksum : Word) : InvInFlight (verifyEffect cw checksum s) := by
  obtain ⟨hf, hv, hp⟩ := engineChecks_pass hpass
  have hmasked := syndrome_masked (h.committed hv) h.prefinal_masked checksum
  have hidle : s.phase ≠ .idle := by rw [hp]; decide
  by_cases hsyn : (syndrome s.cfg s.prefinal checksum).1 = 0
  · rw [verifyEffect_good hsyn]
    exact
      { h with
        idle := fun hi => absurd hi hidle
        syndrome_masked := BitVec.zero_and
        vskip_width := width_of_syndrome_skip
        defect := fun hs => absurd rfl hs }
  · rw [verifyEffect_defect hf hsyn]
    exact
      { h with
        idle := fun hi => absurd hi hidle
        syndrome_masked := hmasked
        vskip_width := width_of_syndrome_skip
        defect := fun _ => ⟨rfl, rfl⟩
        unfaulted := nofun
        faulted := fun _ => ⟨nofun, nofun⟩ }

/-! ## Every command, every word, every step -/

/-- The effect of a command whose checks pass keeps the invariant. -/
theorem InvInFlight.effectOf {i : Instr} {s : State} (h : InvInFlight s) (hpass : firstError (checksOf i s) = none) :
    InvInFlight (effectOf i s) := by
  cases i with
  | cfgw | cfgpoly | cfgxin | cfgxout => exact { h with }
  | cfgcommit => exact h.cfgcommit hpass
  | init => exact h.init hpass
  | update base len =>
    obtain ⟨hpre, -⟩ := firstError_append_eq_none.1 hpass
    exact (h.foldInto hpre _ _).respond _ _
  | updateb b => exact (h.foldInto hpass [b] s.draws).respond _ _
  | final => exact h.final hpass
  | reflect | read => exact h.respond _ _
  | verify => exact h.verify hpass ..
  | verifyi op => exact h.verify hpass ..
  | sreset => exact (resetBlock_invInFlight h.mem).respond _ _

theorem InvInFlight.exec {i : Instr} {s t : State} (h : InvInFlight s) (hexec : exec i s = .next t) : InvInFlight t := by
  rcases exec_next hexec with ⟨e, info, -, he, rfl⟩ | ⟨hpass, rfl⟩
  · exact h.raise he ..
  · exact h.effectOf hpass

theorem InvInFlight.runWord {cw : CmdWord} {op : Word} {s t : State} (h : InvInFlight s) (hrun : runWord cw op s = .next t) :
    InvInFlight t := by
  cases hdec : decode cw op with
  | ok i => rw [runWord_legal s hdec] at hrun; exact h.exec hrun
  | error e =>
    rw [runWord_illegal s hdec] at hrun
    injection hrun with hrun
    exact hrun ▸ h.raise (by decide) ..

/-- Delivering the response puts the writes in flight into `MEM`, and none is left (20_memory.md R63). -/
theorem InvInFlight.settle {s : State} (h : InvInFlight s) : Inv (settle s) :=
  { h with mem := writeAll_wf _ h.mem, quiet := rfl }

/-- Settles O53: one case per event of the host, a command by way of the invariant with writes in flight. -/
theorem stepKeepsTheInvariant : Obligations.StepKeepsTheInvariant := by
  intro s t h hstep
  obtain ⟨hflight, hquiet⟩ := inv_iff.1 h
  rcases step_cases hstep with ⟨-, rfl⟩ | ⟨cw, op, during, rest, u, -, -, hrun, rfl⟩ | ⟨a, b, rest, -, -, rfl⟩ |
    ⟨rest, -, rfl⟩ | ⟨cw, op, rest, -, rfl⟩
  · exact h
  · have hstart : InvInFlight { s with inbox := rest, racing := during } := { hflight with }
    exact (hstart.runWord hrun).settle
  · exact { h with mem := write_wf a b h.mem }
  · exact inv_iff.2 ⟨resetBlock_invInFlight h.mem, hquiet⟩
  · exact inv_iff.2 ⟨resetBlock_invInFlight h.mem, hquiet⟩

end Sys2Proof.Machine
end

section
/-! 10_state.md R30, R32, R35, 60_exceptions.md R200: the layouts of `STATUS` and `CFG`. -/

namespace Sys2Proof.Machine

/-- A field that stands at `start` has the word's bits from there on. -/
theorem extractLsb'_eq_of_getLsbD {w n start : Nat} {v : BitVec w} {x : BitVec n}
    (h : ∀ i < n, v.getLsbD (start + i) = x.getLsbD i) : v.extractLsb' start n = x := by
  apply BitVec.eq_of_getLsbD_eq
  intro i hi
  rw [BitVec.getLsbD_extractLsb', h i hi]
  simp [hi]

/-- `STATUS` bit by bit (R35). -/
theorem getLsbD_statusWord (s : State) (i : Nat) :
    (statusWord s).getLsbD i =
      if i < 1 then s.cfgValid
      else if i < 3 then s.phase.bits.getLsbD (i - 1)
      else if i < 4 then s.err.faulted
      else if i < 8 then s.err.code.bits.getLsbD (i - 4)
      else if i < 9 then s.vskip else false := by
  simp only [statusWord, BitVec.getLsbD_append, BitVec.getLsbD_ofBool, Nat.sub_sub]
  grind

/-- `CFG` bit by bit (R30). -/
theorem getLsbD_cfgWord (c : CfgRegs) (i : Nat) :
    (cfgWord c).getLsbD i =
      if i < 7 then c.width.getLsbD i
      else if i = 8 then c.reflectIn
      else if i = 9 then c.reflectOut else false := by
  simp only [cfgWord, BitVec.getLsbD_append, BitVec.getLsbD_ofBool, BitVec.getLsbD_zero]
  grind

theorem statusWord_phase (s : State) : (statusWord s).extractLsb' 1 2 = s.phase.bits := by
  refine extractLsb'_eq_of_getLsbD fun i hi => ?_
  rw [getLsbD_statusWord, if_neg (by omega), if_pos (by omega), Nat.add_sub_cancel_left]

theorem statusWord_code (s : State) : (statusWord s).extractLsb' 4 4 = s.err.code.bits := by
  refine extractLsb'_eq_of_getLsbD fun i hi => ?_
  rw [getLsbD_statusWord, if_neg (by omega), if_neg (by omega), if_neg (by omega), if_pos (by omega),
    Nat.add_sub_cancel_left]

theorem statusWord_reserved (s : State) : (statusWord s).extractLsb' 9 55 = 0 := by
  refine extractLsb'_eq_of_getLsbD fun i _ => ?_
  rw [getLsbD_statusWord, if_neg (by omega), if_neg (by omega), if_neg (by omega), if_neg (by omega), if_neg (by omega)]
  exact BitVec.getLsbD_zero.symm

theorem cfgWord_width (c : CfgRegs) : (cfgWord c).extractLsb' 0 7 = c.width := by
  refine extractLsb'_eq_of_getLsbD fun i hi => ?_
  rw [getLsbD_cfgWord, if_pos (by omega), Nat.zero_add]

theorem cfgWord_reserved (c : CfgRegs) : (cfgWord c).extractLsb' 10 54 = 0 := by
  refine extractLsb'_eq_of_getLsbD fun i _ => ?_
  rw [getLsbD_cfgWord, if_neg (by omega), if_neg (by omega), if_neg (by omega)]
  exact BitVec.getLsbD_zero.symm

/-- Settles O40: the numbers by definition, one-bit fields and wider fields by the bits of the two words. -/
theorem statusAndCfgLayout : Obligations.StatusAndCfgLayout :=
  ⟨⟨rfl, rfl, rfl, rfl, rfl, rfl, rfl, rfl, rfl, rfl⟩, ⟨rfl, rfl, rfl⟩, fun s =>
    ⟨getLsbD_statusWord s 0, statusWord_phase s, getLsbD_statusWord s 3, statusWord_code s, getLsbD_statusWord s 8,
      statusWord_reserved s, cfgWord_width s.cfg, getLsbD_cfgWord s.cfg 7, getLsbD_cfgWord s.cfg 8, getLsbD_cfgWord s.cfg 9,
      cfgWord_reserved s.cfg⟩⟩

end Sys2Proof.Machine
end

section
/-! 20_memory.md R50, R51, R52, R63: who writes `MEM`, and what an `UPDATE` reads of it while the host writes into its range. -/

namespace Sys2Proof.Machine

open Sys2Proof.Statements

/-! ## Commands do not write `MEM` -/

/-- No row of R42 lists `MEM`, the host's pending events or its writes in flight. -/
theorem keeps_mem_inbox_racing {i : Instr} {s t : State} (h : Keeps i s t) :
    t.mem = s.mem ∧ t.inbox = s.inbox ∧ t.racing = s.racing := by
  cases i with
  | _ =>
    have hframe : t = _ := h
    rw [hframe]
    exact ⟨rfl, rfl, rfl⟩

/-- Settles O51: the frame of every command (O50) holds `MEM` and the host's side of the ports. -/
theorem noCommandWritesMem : Obligations.NoCommandWritesMem := by
  intro i s t h
  obtain ⟨hmem, hinbox, hracing⟩ := keeps_mem_inbox_racing (commandsKeepTheRestOfTheState i s t h)
  rw [hmem]
  exact ⟨fun _ => rfl, rfl, hinbox, hracing⟩

/-! ## The host's write between two commands -/

/-- The step that takes a host write inside `MEM` writes that byte and nothing else (R51, R63). -/
theorem step_memWrite {s : State} {a : Nat} {b : Byte} {rest : List HostEvent} (hin : s.inbox = .memWrite a b :: rest)
    (ha : a < s.mem.size) : step s = .next { s with inbox := rest, mem := s.mem.write a b } := by
  simp only [step, portStep, hin, eventStep, hostWriteStep, if_pos ha]

/-- Settles O15: the step is `Memory.write`, whose reads are known at the address written and at every other. -/
theorem hostWriteIsInMem : Obligations.HostWriteIsInMem := by
  intro s a b rest hin ha
  exact ⟨_, step_memWrite hin ha, read_write_same s.mem b ha, fun _ hx => read_write_other s.mem b hx, rfl,
    write_size s.mem a b⟩

/-! ## `UPDATE` and the host's writes in flight -/

/-- The checks of an engine command pass in a ready state. -/
theorem engineChecks_of_ready {p : Phase} {s : State} (h : Ready p s) : firstError (engineChecks p s) = none := by
  obtain ⟨hfaulted, hvalid, hphase⟩ := h
  simp [engineChecks, hfaulted, hvalid, hphase]

/-- A ready `UPDATE` whose range is empty or inside `MEM` has its effect (41_crc_engine.md R126, 20_memory.md R54). -/
theorem exec_update_ready {base len : BitVec 32} {s : State} (h : Ready .pre s)
    (hrange : len.toNat = 0 ∨ base.toNat + len.toNat ≤ s.mem.size) :
    exec (.update base len) s = .next (updateEffect base len s) := by
  have hpass : firstError (checksOf (.update base len) s) = none :=
    firstError_append_eq_none.2 ⟨engineChecks_of_ready h, by simp [checkRange_pass hrange]⟩
  rw [exec_eq_runChecked, runChecked_pass hpass]
  rfl

/-- Settles O24: the checks pass as they would without the race, and a raced range is read as draws, one for each byte. -/
theorem racedUpdateFoldsFreeBytes : Obligations.RacedUpdateFoldsFreeBytes := by
  intro base len s hready hrange hraces
  have hraced : rangeRaced base len s = true := rangeRaced_eq_true.2 hraces
  simp only [exec_update_ready hready (.inr hrange), updateEffect, updateBytes_raced hraced, updateDraws_raced hraced, respond]

end Sys2Proof.Machine
end

section
/-! 30_encoding.md R71 to R75: command words, the rows that select them, and what they decode to. -/

namespace Sys2Proof

open Sys2Proof.Statements

/-! ## Words and rows -/

/-- The opcode byte and the bits reserved in every command, for all fourteen (R71, R74). -/
theorem opcodeByte (i : Instr) : Laws.OpcodeByte.Statement i :=
  match i with
  | .cfgw .. => Laws.OpcodeByte.cfgw ..
  | .cfgpoly _ => Laws.OpcodeByte.cfgpoly _
  | .cfgxin _ => Laws.OpcodeByte.cfgxin _
  | .cfgxout _ => Laws.OpcodeByte.cfgxout _
  | .cfgcommit => Laws.OpcodeByte.cfgcommit
  | .init => Laws.OpcodeByte.init
  | .update .. => Laws.OpcodeByte.update ..
  | .updateb _ => Laws.OpcodeByte.updateb _
  | .final => Laws.OpcodeByte.final
  | .reflect .. => Laws.OpcodeByte.reflect ..
  | .verify => Laws.OpcodeByte.verify
  | .verifyi _ => Laws.OpcodeByte.verifyi _
  | .read _ => Laws.OpcodeByte.read _
  | .sreset => Laws.OpcodeByte.sreset

/-- A word's bits under a mask are the pattern when putting the pattern there changes nothing. -/
theorem and_mask_eq_iff_fill_eq {mask pattern : CmdWord} (hp : pattern &&& mask = pattern) (cw : CmdWord) :
    cw &&& mask = pattern ↔ cw &&& ~~~mask ||| pattern = cw := by
  constructor
  · rintro rfl
    ext i hi
    cases hm : mask[i] <;> simp [hm]
  · intro h
    rw [← h, BitVec.and_or_distrib_right, BitVec.and_assoc, BitVec.not_and_self, hp]
    simp

/-- The fields of `CFGW` are the bits that its row leaves free. -/
theorem encodeCw_cfgw_fields (cw : CmdWord) :
    encodeCw (.cfgw (fieldN cw) (fieldRI cw) (fieldRO cw)) = cw &&& ~~~0xFCFF80FF ||| 0x00000001 := by
  apply BitVec.eq_of_getLsbD_eq
  intro i hi
  simp only [encodeCw, fieldN, fieldRI, fieldRO, BitVec.getLsbD_append, BitVec.getLsbD_or, BitVec.getLsbD_and]
  interval_cases i <;> simp

/-- The field `N` stands in the bits that the row of `REFLECT` leaves free. -/
theorem encodeCw_reflect_fields (cw : CmdWord) (op : Word) :
    encodeCw (.reflect (fieldN cw) op) = cw &&& ~~~0xFFFF80FF ||| 0x00000020 := by
  apply BitVec.eq_of_getLsbD_eq
  intro i hi
  simp only [encodeCw, fieldN, BitVec.getLsbD_append, BitVec.getLsbD_or, BitVec.getLsbD_and]
  interval_cases i <;> simp

/-- The field `B` stands in the bits that the rows of `UPDATEB` and `READ` leave free. -/
theorem append_fieldB (cw : CmdWord) (opc : Byte) :
    0#8 ++ fieldB cw ++ 0#8 ++ opc = cw &&& ~~~0xFF00FFFF ||| opc.setWidth 32 := by
  apply BitVec.eq_of_getLsbD_eq
  intro i hi
  simp only [fieldB, BitVec.getLsbD_append, BitVec.getLsbD_or, BitVec.getLsbD_and]
  interval_cases i <;> simp

/-- The word of the command that a row makes has the row's pattern in the masked bits and the word's own bits elsewhere. -/
theorem encodeCw_make {r : Row} (hr : r ∈ opcodeRows) (cw : CmdWord) (op : Word) :
    encodeCw (r.make cw op) = cw &&& ~~~r.mask ||| r.pattern := by
  have constant (w : CmdWord) : w = cw &&& ~~~0xFFFFFFFF ||| w := by simp
  revert r
  simp only [opcodeRows, List.forall_mem_cons]
  exact ⟨encodeCw_cfgw_fields cw, constant _, constant _, constant _, constant _, constant _, constant _,
    append_fieldB cw _, constant _, encodeCw_reflect_fields cw op, constant _, constant _, append_fieldB cw _,
    constant _, nofun⟩

theorem pattern_and_mask : ∀ r ∈ opcodeRows, r.pattern &&& r.mask = r.pattern := by decide

/-- A row matches exactly the words of the commands it makes (R74). -/
theorem matches_iff_encodeCw_make {r : Row} (hr : r ∈ opcodeRows) (cw : CmdWord) (op : Word) :
    cw &&& r.mask = r.pattern ↔ encodeCw (r.make cw op) = cw := by
  rw [encodeCw_make hr, and_mask_eq_iff_fill_eq (pattern_and_mask r hr)]

theorem opcode_make {r : Row} (hr : r ∈ opcodeRows) (cw : CmdWord) (op : Word) :
    (r.make cw op).opcode = fieldOpc r.pattern := by
  revert r
  simp only [opcodeRows, List.forall_mem_cons]
  exact ⟨rfl, rfl, rfl, rfl, rfl, rfl, rfl, rfl, rfl, rfl, rfl, rfl, rfl, rfl, nofun⟩

theorem fieldOpc_of_matches {r : Row} (hr : r ∈ opcodeRows) {cw : CmdWord} (h : cw &&& r.mask = r.pattern) :
    fieldOpc cw = fieldOpc r.pattern := by
  have hcw : encodeCw (r.make cw 0) = cw := (matches_iff_encodeCw_make hr cw 0).1 h
  have hopc : fieldOpc (encodeCw (r.make cw 0)) = (r.make cw 0).opcode := (opcodeByte _).1
  rw [← opcode_make hr cw 0, ← hopc, hcw]

/-- No two rows share an opcode. -/
theorem row_eq_of_fieldOpc {r r' : Row} (hr : r ∈ opcodeRows) (hr' : r' ∈ opcodeRows)
    (h : fieldOpc r.pattern = fieldOpc r'.pattern) : r = r' :=
  List.inj_on_of_nodup_map (f := fun r : Row => fieldOpc r.pattern) (l := opcodeRows) (by decide) hr hr' h

theorem row_eq_of_matches {r r' : Row} (hr : r ∈ opcodeRows) (hr' : r' ∈ opcodeRows) {cw : CmdWord}
    (h : cw &&& r.mask = r.pattern) (h' : cw &&& r'.mask = r'.pattern) : r = r' :=
  row_eq_of_fieldOpc hr hr' ((fieldOpc_of_matches hr h).symm.trans (fieldOpc_of_matches hr' h'))

theorem exists_match_or_no_match (cw : CmdWord) :
    (∃ r ∈ opcodeRows, cw &&& r.mask = r.pattern) ∨ ∀ r ∈ opcodeRows, cw &&& r.mask ≠ r.pattern := by
  simpa only [not_exists, not_and] using em (∃ r ∈ opcodeRows, cw &&& r.mask = r.pattern)

/-! ## Decoding -/

theorem decode_of_matches {r : Row} (hr : r ∈ opcodeRows) {cw : CmdWord} (h : cw &&& r.mask = r.pattern) (op : Word) :
    decode cw op = .ok (r.make cw op) := by
  unfold decode
  split
  · next r' hfind =>
    have hmatch : cw &&& r'.mask = r'.pattern := by simpa using List.find?_some hfind
    rw [row_eq_of_matches (List.mem_of_find?_eq_some hfind) hr hmatch h]
  · next hfind => exact absurd h (by simpa using List.find?_eq_none.1 hfind r hr)

theorem decode_of_no_match {cw : CmdWord} (h : ∀ r ∈ opcodeRows, cw &&& r.mask ≠ r.pattern) (op : Word) :
    decode cw op =
      .error (if opcodeAssigned (fieldOpc cw) then .reservedBitSet (fieldOpc cw) else .unassignedOpcode (fieldOpc cw)) := by
  have hfind : (opcodeRows.find? fun r => cw &&& r.mask == r.pattern) = none := List.find?_eq_none.2 (by simpa using h)
  unfold decode
  rw [hfind]
  dsimp only
  split <;> rfl

theorem decode_eq_ok_iff {cw : CmdWord} {op : Word} {i : Instr} :
    decode cw op = .ok i ↔ ∃ r ∈ opcodeRows, cw &&& r.mask = r.pattern ∧ r.make cw op = i := by
  constructor
  · intro h
    rcases exists_match_or_no_match cw with ⟨r, hr, hmatch⟩ | hnone
    · rw [decode_of_matches hr hmatch] at h
      exact ⟨r, hr, hmatch, by injection h⟩
    · rw [decode_of_no_match hnone] at h
      cases h
  · rintro ⟨r, hr, hmatch, rfl⟩
    exact decode_of_matches hr hmatch op

/-! ## The fields of an encoded word (R71) -/

@[simp] theorem fieldN_encodeCw_cfgw (n : BitVec 7) (ri ro : Bool) : fieldN (encodeCw (.cfgw n ri ro)) = n :=
  Machine.extractLsb'_eq_of_getLsbD fun i hi => by
    simp only [encodeCw, BitVec.getLsbD_append]
    simp [hi]

@[simp] theorem fieldRI_encodeCw_cfgw (n : BitVec 7) (ri ro : Bool) : fieldRI (encodeCw (.cfgw n ri ro)) = ri := by
  simp only [fieldRI, encodeCw, BitVec.getLsbD_append]
  simp

@[simp] theorem fieldRO_encodeCw_cfgw (n : BitVec 7) (ri ro : Bool) : fieldRO (encodeCw (.cfgw n ri ro)) = ro := by
  simp only [fieldRO, encodeCw, BitVec.getLsbD_append]
  simp

@[simp] theorem fieldN_encodeCw_reflect (n : BitVec 7) (op : Word) : fieldN (encodeCw (.reflect n op)) = n :=
  Machine.extractLsb'_eq_of_getLsbD fun i hi => by
    simp only [encodeCw, BitVec.getLsbD_append]
    simp [hi]

@[simp] theorem fieldB_append (b opc : Byte) : fieldB (0#8 ++ b ++ 0#8 ++ opc) = b :=
  Machine.extractLsb'_eq_of_getLsbD fun i hi => by
    simp only [BitVec.getLsbD_append]
    simp [hi, show ¬ 16 + i < 8 by omega, show ¬ 16 + i - 8 < 8 by omega, show 16 + i - 8 - 8 = i by omega]

@[simp] theorem operandBase_append (len base : BitVec 32) : operandBase (len ++ base) = base :=
  BitVec.extractLsb'_append_eq_right

@[simp] theorem operandLen_append (len base : BitVec 32) : operandLen (len ++ base) = len :=
  BitVec.extractLsb'_append_eq_left

@[simp] theorem operandLen_append_operandBase (op : Word) : operandLen op ++ operandBase op = op :=
  (BitVec.extractLsb'_append_extractLsb'_eq_extractLsb' rfl).trans BitVec.extractLsb'_eq_self

/-- Every command is made by a row from its own word, and from its operand where it reads one (R72). -/
theorem exists_row_make_encodeCw (i : Instr) :
    ∃ r ∈ opcodeRows, ∀ op, (readsOperand i.opcode = true → op = encodeOp i) → r.make (encodeCw i) op = i := by
  cases i with
  | cfgw n ri ro => exact ⟨opcodeRows[0], List.getElem_mem _, fun _ _ => by simp [opcodeRows]⟩
  | cfgpoly op => exact ⟨opcodeRows[1], List.getElem_mem _, fun _ h => congrArg Instr.cfgpoly (h rfl)⟩
  | cfgxin op => exact ⟨opcodeRows[2], List.getElem_mem _, fun _ h => congrArg Instr.cfgxin (h rfl)⟩
  | cfgxout op => exact ⟨opcodeRows[3], List.getElem_mem _, fun _ h => congrArg Instr.cfgxout (h rfl)⟩
  | cfgcommit => exact ⟨opcodeRows[4], List.getElem_mem _, fun _ _ => rfl⟩
  | init => exact ⟨opcodeRows[5], List.getElem_mem _, fun _ _ => rfl⟩
  | update base len =>
    exact ⟨opcodeRows[6], List.getElem_mem _, fun _ h => by simp [opcodeRows, h rfl, encodeOp]⟩
  | updateb b => exact ⟨opcodeRows[7], List.getElem_mem _, fun _ _ => by simp [opcodeRows, encodeCw]⟩
  | final => exact ⟨opcodeRows[8], List.getElem_mem _, fun _ _ => rfl⟩
  | reflect n op => exact ⟨opcodeRows[9], List.getElem_mem _, fun _ h => by simp [opcodeRows, h rfl, encodeOp]⟩
  | verify => exact ⟨opcodeRows[10], List.getElem_mem _, fun _ _ => rfl⟩
  | verifyi op => exact ⟨opcodeRows[11], List.getElem_mem _, fun _ h => congrArg Instr.verifyi (h rfl)⟩
  | read b => exact ⟨opcodeRows[12], List.getElem_mem _, fun _ _ => by simp [opcodeRows, encodeCw]⟩
  | sreset => exact ⟨opcodeRows[13], List.getElem_mem _, fun _ _ => rfl⟩

/-- A command's word decodes to it, given its operand where it reads one. -/
theorem decode_encodeCw {i : Instr} {op : Word} (h : readsOperand i.opcode = true → op = encodeOp i) :
    decode (encodeCw i) op = .ok i := by
  obtain ⟨r, hr, hmake⟩ := exists_row_make_encodeCw i
  have hi : r.make (encodeCw i) op = i := hmake op h
  have hmatch : encodeCw i &&& r.mask = r.pattern := (matches_iff_encodeCw_make hr _ op).2 (by rw [hi])
  rw [decode_of_matches hr hmatch, hi]

/-- Settles O2: the row that makes the command matches its word, whatever an operand it does not read. -/
theorem decodeOfEncode : Obligations.DecodeOfEncode := by
  intro i _
  refine ⟨decode_encodeCw fun _ => rfl, fun hreads op => decode_encodeCw fun h => ?_⟩
  rw [hreads] at h
  cases h

/-! ## What the rows do with `OP` (R72) -/

theorem encodeOp_make {r : Row} (hr : r ∈ opcodeRows) (hreads : readsOperand (fieldOpc r.pattern) = true) (cw : CmdWord)
    (op : Word) : encodeOp (r.make cw op) = op := by
  revert r
  simp only [opcodeRows, List.forall_mem_cons]
  exact ⟨nofun, fun _ => rfl, fun _ => rfl, fun _ => rfl, nofun, nofun, fun _ => operandLen_append_operandBase op, nofun,
    nofun, fun _ => rfl, nofun, fun _ => rfl, nofun, nofun, nofun⟩

theorem make_eq_of_not_readsOperand {r : Row} (hr : r ∈ opcodeRows) (hreads : readsOperand (fieldOpc r.pattern) = false)
    (cw : CmdWord) (op op' : Word) : r.make cw op = r.make cw op' := by
  revert r
  simp only [opcodeRows, List.forall_mem_cons]
  exact ⟨fun _ => trivial, nofun, nofun, nofun, fun _ => trivial, fun _ => trivial, nofun, fun _ => trivial,
    fun _ => trivial, nofun, fun _ => trivial, nofun, fun _ => trivial, fun _ => trivial, nofun⟩

/-- Settles O3: the word matches the row that makes the command, so it is that command's word. -/
theorem encodeOfDecode : Obligations.EncodeOfDecode := by
  intro cw op i h
  obtain ⟨r, hr, hmatch, rfl⟩ := decode_eq_ok_iff.1 h
  refine ⟨(matches_iff_encodeCw_make hr cw op).1 hmatch, fun hreads => encodeOp_make hr ?_ cw op⟩
  rwa [opcode_make hr] at hreads

/-! ## R74's table -/

/-- The table written out for the statements is the decoder's. -/
theorem opcodeMap_eq : opcodeMap = opcodeRows.map fun r => (fieldOpc r.pattern, r.mask, r.pattern) := by decide

theorem forall_mem_opcodeMap {P : Byte × CmdWord × CmdWord → Prop} :
    (∀ row ∈ opcodeMap, P row) ↔ ∀ r ∈ opcodeRows, P (fieldOpc r.pattern, r.mask, r.pattern) := by
  rw [opcodeMap_eq, List.forall_mem_map]

theorem decode_opcode_eq_iff {r : Row} (hr : r ∈ opcodeRows) (cw : CmdWord) (op : Word) :
    (∃ i, decode cw op = .ok i ∧ i.opcode = fieldOpc r.pattern) ↔ cw &&& r.mask = r.pattern := by
  constructor
  · rintro ⟨i, hi, hopc⟩
    obtain ⟨r', hr', hmatch, rfl⟩ := decode_eq_ok_iff.1 hi
    rw [opcode_make hr'] at hopc
    rwa [← row_eq_of_fieldOpc hr' hr hopc]
  · exact fun hmatch => ⟨_, decode_of_matches hr hmatch op, opcode_make hr cw op⟩

/-- Settles O4: the row of a decoded command is known by its opcode, and rows with one opcode are one row. -/
theorem rowSelectedByMaskAndMatch : Obligations.RowSelectedByMaskAndMatch := by
  simp only [Obligations.RowSelectedByMaskAndMatch, forall_mem_opcodeMap]
  refine ⟨fun cw op r hr => decode_opcode_eq_iff hr cw op, fun cw r hr r' hr' h h' => ?_⟩
  rw [row_eq_of_matches hr hr' h h']

/-! ## Illegal words (R75) -/

theorem unassigned_iff (opc : Byte) : Unassigned opc.toNat ↔ opcodeAssigned opc = false := by
  revert opc
  decide

theorem opcodeAssigned_of_matches {r : Row} (hr : r ∈ opcodeRows) {cw : CmdWord} (h : cw &&& r.mask = r.pattern) :
    opcodeAssigned (fieldOpc cw) = true :=
  List.any_eq_true.2 ⟨r, hr, beq_iff_eq.2 (fieldOpc_of_matches hr h).symm⟩

theorem reserved_bits_of_decode {cw : CmdWord} {op : Word} {i : Instr} (h : decode cw op = .ok i) :
    cw.getLsbD 15 = false ∧ cw.extractLsb' 26 6 = 0 := by
  obtain ⟨-, h15, h26⟩ := opcodeByte i
  rw [(encodeOfDecode cw op i h).1] at h15 h26
  exact ⟨h15, Machine.extractLsb'_eq_of_getLsbD fun k _ => (h26 _ (by omega)).trans BitVec.getLsbD_zero.symm⟩

/-- Settles O5: the opcode of a word that matches is assigned, and the bits reserved in every command are 0 in a legal word. -/
theorem twoKindsOfIllegalWord : Obligations.TwoKindsOfIllegalWord := by
  simp only [Obligations.TwoKindsOfIllegalWord, forall_mem_opcodeMap]
  intro cw op
  refine ⟨fun hun => ?_, fun hun hnone => ?_, fun hres => ?_⟩
  · have hassigned := (unassigned_iff (fieldOpc cw)).1 hun
    rw [decode_of_no_match, hassigned]
    · rfl
    · intro r hr h
      rw [opcodeAssigned_of_matches hr h] at hassigned
      cases hassigned
  · have hassigned : opcodeAssigned (fieldOpc cw) = true := by simpa using mt (unassigned_iff (fieldOpc cw)).2 hun
    rw [decode_of_no_match hnone, hassigned]
    rfl
  · cases hdec : decode cw op with
    | error e => exact ⟨e, rfl⟩
    | ok i =>
      obtain ⟨h15, h26⟩ := reserved_bits_of_decode hdec
      rcases hres with h | h
      · rw [h15] at h; cases h
      · exact absurd h26 h

/-- Settles O6: a word selects its row without `OP`, and a row that does not read `OP` makes one command of all of them. -/
theorem operandUse : Obligations.OperandUse := by
  refine ⟨fun op => ⟨rfl, rfl, rfl, rfl, rfl⟩, fun cw op h => ?_, fun cw op op' hreads => ?_⟩
  · exact decode_of_matches (r := opcodeRows[9]) (List.getElem_mem _) h op
  · rcases exists_match_or_no_match cw with ⟨r, hr, hmatch⟩ | hnone
    · have hrow : readsOperand (fieldOpc r.pattern) = false := fieldOpc_of_matches hr hmatch ▸ hreads
      rw [decode_of_matches hr hmatch, decode_of_matches hr hmatch, make_eq_of_not_readsOperand hr hrow cw op op']
    · rw [decode_of_no_match hnone, decode_of_no_match hnone]

/-- Settles O1: the decoder evaluated on each word. -/
theorem sampleWordsDecode : Obligations.SampleWordsDecode :=
  ⟨rfl, rfl, rfl, rfl, rfl, rfl, rfl, rfl, rfl, rfl⟩

end Sys2Proof
end

section
/-! 30_encoding.md R78, R79: the assembler's lines, and what they assemble to. -/

namespace Sys2Proof.Machine

/-! ## Lines whose operands fit -/

theorem fits_eq_true {bits v : Nat} : fits bits v = true ↔ v < 2 ^ bits := by simp [fits]

theorem assemble_eq_some {l : AsmLine} {ws : List (CmdWord × Word)} :
    l.assemble = some ws ↔ l.wf = true ∧ l.words = ws := by
  simp [AsmLine.assemble]

theorem assemble_eq_none {l : AsmLine} : l.assemble = none ↔ ¬ l.wf = true := by
  simp [AsmLine.assemble]

theorem assemble_single {l : AsmLine} {p q : CmdWord × Word} (hwf : l.wf = true) (hwords : l.words = [p]) (hpq : p = q) :
    l.assemble = some [q] := assemble_eq_some.2 ⟨hwf, hpq ▸ hwords⟩

theorem wf_cfgw {w ri ro : Nat} : (AsmLine.cfgw w ri ro).wf = true ↔ w < 128 ∧ ri < 2 ∧ ro < 2 := by
  simp [AsmLine.wf, fits_eq_true, and_assoc]

theorem wf_update {base len : Nat} : (AsmLine.update base len).wf = true ↔ base < 2 ^ 32 ∧ len < 2 ^ 32 := by
  simp only [AsmLine.wf, Bool.and_eq_true, fits_eq_true]

theorem wf_crc {base len : Nat} : (AsmLine.crc base len).wf = true ↔ base < 2 ^ 32 ∧ len < 2 ^ 32 := wf_update

theorem wf_reflect {v n : Nat} : (AsmLine.reflect v n).wf = true ↔ v < 2 ^ 64 ∧ n < 128 := by
  simp [AsmLine.wf, fits_eq_true]

/-- The operands of `configure` fit when those of its expansion do (R79). -/
theorem wf_configure {w poly xin xout ri ro : Nat} :
    (AsmLine.configure w poly xin xout ri ro).wf = true ↔
      (AsmLine.cfgw w ri ro).wf = true ∧ (AsmLine.cfgpoly poly).wf = true ∧ (AsmLine.cfgxin xin).wf = true ∧
        (AsmLine.cfgxout xout).wf = true := by
  simp only [AsmLine.wf, Bool.and_eq_true]
  tauto

theorem wf_updatestr {bytes : List Nat} : (AsmLine.updatestr bytes).wf = true ↔ ∀ b ∈ bytes, b < 128 := by
  simp [AsmLine.wf, fits_eq_true]

/-! ## The numbers of R78's table are the encoder's words -/

/-- A concatenation as a number, without bit operations. -/
theorem toNat_append_eq_add {m n : Nat} (x : BitVec m) (y : BitVec n) : (x ++ y).toNat = x.toNat * 2 ^ n + y.toNat := by
  rw [BitVec.toNat_append, ← Nat.shiftLeft_add_eq_or_of_lt y.isLt, Nat.shiftLeft_eq]

theorem toNat_ofBool_beq_one {b : Nat} (h : b < 2) : (BitVec.ofBool (b == 1)).toNat = b := by
  interval_cases b <;> rfl

theorem word_cfgw {w ri ro : Nat} (hw : w < 128) (hri : ri < 2) (hro : ro < 2) :
    word (0x01 + (w <<< 8) + (ri <<< 24) + (ro <<< 25)) 0 = encode (.cfgw (BitVec.ofNat 7 w) (ri == 1) (ro == 1)) := by
  refine Prod.ext (BitVec.eq_of_toNat_eq ?_) rfl
  simp only [word, encode, encodeCw, toNat_append_eq_add, toNat_ofBool_beq_one hri, toNat_ofBool_beq_one hro,
    BitVec.toNat_ofNat, Nat.shiftLeft_eq]
  omega

theorem word_reflect {v n : Nat} (hn : n < 128) :
    word (0x20 + (n <<< 8)) v = encode (.reflect (BitVec.ofNat 7 n) (BitVec.ofNat 64 v)) := by
  refine Prod.ext (BitVec.eq_of_toNat_eq ?_) rfl
  simp only [word, encode, encodeCw, toNat_append_eq_add, BitVec.toNat_ofNat, Nat.shiftLeft_eq]
  omega

theorem word_update {base len : Nat} (hbase : base < 2 ^ 32) :
    word 0x11 ((len <<< 32) + base) = encode (.update (BitVec.ofNat 32 base) (BitVec.ofNat 32 len)) := by
  refine Prod.ext rfl (BitVec.eq_of_toNat_eq ?_)
  simp only [word, encode, encodeOp, toNat_append_eq_add, BitVec.toNat_ofNat, Nat.shiftLeft_eq]
  omega

/-- The field `B` above an opcode byte, for `UPDATEB` and `READ`. -/
theorem ofNat_byte_field {b : Nat} (hb : b < 256) (opc : Byte) :
    BitVec.ofNat 32 (opc.toNat + (b <<< 16)) = 0#8 ++ BitVec.ofNat 8 b ++ 0#8 ++ opc := by
  apply BitVec.eq_of_toNat_eq
  simp only [toNat_append_eq_add, BitVec.toNat_ofNat, Nat.shiftLeft_eq]
  omega

theorem word_updateb {b : Nat} (hb : b < 256) : word (0x12 + (b <<< 16)) 0 = encode (.updateb (BitVec.ofNat 8 b)) :=
  Prod.ext (ofNat_byte_field hb 0x12) rfl

theorem word_read {b : Nat} (hb : b < 256) : word (0x40 + (b <<< 16)) 0 = encode (.read (BitVec.ofNat 8 b)) :=
  Prod.ext (ofNat_byte_field hb 0x40) rfl

/-! ## The statements about the assembler -/

/-- Settles O7: a line with operands that fit has its word of R78's table, and one operand too large fails the line's check. -/
theorem assembledLinesAreEncodings : Obligations.AssembledLinesAreEncodings := by
  refine ⟨?_, ?_, ?_, ?_, ?_, rfl, rfl, rfl, rfl, rfl, ?_, ?_, ?_, ?_, ?_, ?_, ?_⟩
  · exact fun w ri ro hw hri hro => assemble_single (wf_cfgw.2 ⟨hw, hri, hro⟩) rfl (word_cfgw hw hri hro)
  · intro v hv
    have hfits : fits 64 v = true := fits_eq_true.2 hv
    exact ⟨assemble_single hfits rfl rfl, assemble_single hfits rfl rfl, assemble_single hfits rfl rfl,
      assemble_single hfits rfl rfl⟩
  · exact fun base hbase len hlen => assemble_single (wf_update.2 ⟨hbase, hlen⟩) rfl (word_update hbase)
  · intro b hb
    have hfits : fits 8 b = true := fits_eq_true.2 hb
    exact ⟨assemble_single hfits rfl (word_updateb hb), assemble_single hfits rfl (word_read hb)⟩
  · exact fun v hv n hn => assemble_single (wf_reflect.2 ⟨hv, hn⟩) rfl (word_reflect hn)
  · intro w ri ro h
    rw [assemble_eq_none, wf_cfgw]
    omega
  · intro v hv
    have hfits : ¬ fits 64 v = true := fits_eq_true.not.2 (Nat.not_lt.2 hv)
    exact ⟨assemble_eq_none.2 hfits, assemble_eq_none.2 hfits, assemble_eq_none.2 hfits, assemble_eq_none.2 hfits⟩
  · intro base len h
    rw [assemble_eq_none, assemble_eq_none, wf_update, wf_crc]
    omega
  · intro b hb
    have hfits : ¬ fits 8 b = true := fits_eq_true.not.2 (Nat.not_lt.2 hb)
    exact ⟨assemble_eq_none.2 hfits, assemble_eq_none.2 hfits⟩
  · intro v n h
    rw [assemble_eq_none, wf_reflect]
    omega
  · intro w poly xin xout ri ro h
    rw [assemble_eq_none, wf_configure, wf_cfgw]
    simp only [AsmLine.wf, fits_eq_true]
    omega
  · rintro bytes ⟨b, hb, hlarge⟩
    rw [assemble_eq_none, wf_updatestr]
    exact fun h => absurd (h b hb) (Nat.not_lt.2 hlarge)

/-- Settles O8: a pseudo-instruction fits when the lines of its expansion do, and its words are theirs by definition. -/
theorem pseudoInstructionsExpand : Obligations.PseudoInstructionsExpand := by
  simp only [Obligations.PseudoInstructionsExpand, assemble_eq_some]
  refine ⟨?_, ?_, ?_⟩
  · rintro w poly xin xout ri ro _ _ _ _ _ ⟨hcfgw, rfl⟩ ⟨hpoly, rfl⟩ ⟨hxin, rfl⟩ ⟨hxout, rfl⟩ ⟨-, rfl⟩
    exact ⟨wf_configure.2 ⟨hcfgw, hpoly, hxin, hxout⟩, rfl⟩
  · rintro base len _ _ _ ⟨-, rfl⟩ ⟨hupdate, rfl⟩ ⟨-, rfl⟩
    exact ⟨hupdate, rfl⟩
  · exact fun bytes hascii => ⟨wf_updatestr.2 hascii, List.map_eq_flatMap⟩

end Sys2Proof.Machine
end

section
/-! 30_encoding.md R77: every command responds. -/

namespace Sys2Proof.Machine

theorem effectOf_responds (i : Instr) (s : State) : ∃ r, (effectOf i s).response = some r := by
  have hverify (cw : CmdWord) (checksum : Word) : ∃ r, (verifyEffect cw checksum s).response = some r := by
    unfold verifyEffect
    dsimp only
    split <;> exact ⟨_, rfl⟩
  cases i with
  | verify => exact hverify ..
  | verifyi op => exact hverify ..
  | _ => exact ⟨_, rfl⟩

/-- Settles O16: a check that fails raises its error, which responds, and so does every effect. -/
theorem everyCommandResponds : Obligations.EveryCommandResponds := by
  intro i s
  rw [exec_eq_runChecked]
  cases hcheck : firstError (checksOf i s) with
  | some e => exact ⟨_, _, runChecked_fail hcheck, raise_response ..⟩
  | none =>
    obtain ⟨r, hr⟩ := effectOf_responds i s
    exact ⟨_, r, runChecked_pass hcheck, hr⟩

end Sys2Proof.Machine
end

section
/-! 60_exceptions.md R211 to R213: what a command answers when its first failing check is known, and when none fails. -/

namespace Sys2Proof.Machine

open Sys2Proof.Statements

theorem exec_pass {i : Instr} {s : State} (h : firstError (checksOf i s) = none) : exec i s = .next (effectOf i s) := by
  rw [exec_eq_runChecked, runChecked_pass h]

/-- Any error of the checks but `ERR_FAULTED` and `ERR_DEFECT`, when it is the block's first, is recorded with its response. -/
theorem raises_of_firstError {i : Instr} {s : State} {e : Code} {info : Word}
    (h : firstError (checksOf i s) = some (e, info)) (hf : s.err.faulted = false) (he : e ≠ .faulted) (hd : e ≠ .defect) :
    Raises i s e info := by
  rw [Raises, exec_eq_runChecked, runChecked_fail h, raise_first _ _ _ _ he hf, if_neg hd]

theorem refusesFaulted_of_firstError {i : Instr} {s : State} {info : Word}
    (h : firstError (checksOf i s) = some (.faulted, info)) : RefusesFaulted i s := by
  rw [RefusesFaulted, exec_eq_runChecked, runChecked_fail h, raise_faulted]

end Sys2Proof.Machine
end

section
/-! 40_configuration.md R101 to R105, R107, R108: staging, the commit, and the lock. -/

namespace Sys2Proof.Machine

open Sys2Proof.Statements

/-! ## The errors of the configuration commands (R203, R209) -/

/-- Every configuration command begins with the two checks it shares with the others. -/
theorem checksOf_config {i : Instr} (h : IsConfigCommand i) (s : State) : ∃ cs, checksOf i s = cfgChecks s ++ cs := by
  cases i with
  | cfgw | cfgpoly | cfgxin | cfgxout => exact ⟨[], rfl⟩
  | cfgcommit => exact ⟨[checkStagedWidth s], rfl⟩
  | _ => exact h.elim

theorem config_refusesFaulted {i : Instr} {s : State} (h : IsConfigCommand i) (hf : s.err.faulted = true) :
    RefusesFaulted i s := by
  obtain ⟨cs, hcs⟩ := checksOf_config h s
  have hfirst : firstError (checksOf i s) = some (.faulted, 0) := by simp [hcs, cfgChecks, hf]
  exact refusesFaulted_of_firstError hfirst

theorem config_raises_cfgLocked {i : Instr} {s : State} (h : IsConfigCommand i) (hf : s.err.faulted = false)
    (hv : s.cfgValid = true) : Raises i s .cfgLocked 0 := by
  obtain ⟨cs, hcs⟩ := checksOf_config h s
  have hfirst : firstError (checksOf i s) = some (.cfgLocked, 0) := by simp [hcs, cfgChecks, hf, hv]
  exact raises_of_firstError hfirst hf nofun nofun

theorem firstError_cfgChecks_append {s : State} (hf : s.err.faulted = false) (hv : s.cfgValid = false) (cs : List Check) :
    firstError (cfgChecks s ++ cs) = firstError cs := by
  simp [cfgChecks, hf, hv]

/-! ## Staging (R101 to R104) -/

theorem checksOf_staging {i : Instr} (h : IsStaging i) (s : State) : checksOf i s = cfgChecks s := by
  cases i with
  | cfgw | cfgpoly | cfgxin | cfgxout => rfl
  | _ => exact h.elim

theorem effectOf_staging {i : Instr} (h : IsStaging i) (s : State) :
    effectOf i s = { s with stg := stageOne s.stg i, response := some ⟨.ok, 0⟩ } := by
  cases i with
  | cfgw | cfgpoly | cfgxin | cfgxout => rfl
  | _ => exact h.elim

/-- A staging command of an unfaulted, uncommitted block writes its staging registers and responds, and does nothing else. -/
theorem exec_staging {i : Instr} {s : State} (h : IsStaging i) (hf : s.err.faulted = false) (hv : s.cfgValid = false) :
    exec i s = .next { s with stg := stageOne s.stg i, response := some ⟨.ok, 0⟩ } := by
  have hpass : firstError (checksOf i s) = none := by
    rw [checksOf_staging h]
    exact firstError_cfgChecks_append hf hv []
  rw [exec_pass hpass, effectOf_staging h]

/-- Settles O17: the row of `CFGW` makes the command, which is a staging command. -/
theorem cfgwStagesWidthAndFlags : Obligations.CfgwStagesWidthAndFlags := by
  refine ⟨fun cw op h => decode_of_matches (r := opcodeRows[0]) (List.getElem_mem _) h op, fun n ri ro s => ?_⟩
  exact ⟨config_refusesFaulted trivial, config_raises_cfgLocked trivial, exec_staging (i := .cfgw n ri ro) trivial⟩

/-- Settles O18: each of the three is a staging command, and `stageOne` gives its register `OP`. -/
theorem stagingWordsTakeTheOperand : Obligations.StagingWordsTakeTheOperand := by
  refine ⟨fun op => ⟨rfl, rfl, rfl⟩, fun op s => ⟨fun hf => ?_, fun hf hv => ?_, fun hf hv => ?_⟩⟩
  · exact ⟨config_refusesFaulted trivial hf, config_refusesFaulted trivial hf, config_refusesFaulted trivial hf⟩
  · exact ⟨config_raises_cfgLocked trivial hf hv, config_raises_cfgLocked trivial hf hv,
      config_raises_cfgLocked trivial hf hv⟩
  · exact ⟨exec_staging (i := .cfgpoly op) trivial hf hv, exec_staging (i := .cfgxin op) trivial hf hv,
      exec_staging (i := .cfgxout op) trivial hf hv⟩

/-! ## Commit (R105) -/

theorem checksOf_cfgcommit (s : State) : checksOf .cfgcommit s = cfgChecks s ++ [checkStagedWidth s] := rfl

theorem cfgcommit_raises_config {s : State} (hf : s.err.faulted = false) (hv : s.cfgValid = false)
    (hw : s.stg.width.toNat < 1 ∨ 64 < s.stg.width.toNat) : Raises .cfgcommit s .config (s.stg.width.setWidth 64) := by
  refine raises_of_firstError ?_ hf nofun nofun
  rw [checksOf_cfgcommit, firstError_cfgChecks_append hf hv, checkStagedWidth_fail hw, firstError_fail]

theorem exec_cfgcommit {s : State} (hf : s.err.faulted = false) (hv : s.cfgValid = false)
    (hpos : 1 ≤ s.stg.width.toNat) (hle : s.stg.width.toNat ≤ 64) :
    exec .cfgcommit s = .next { s with cfg := commitRegs s.stg, cfgValid := true, response := some ⟨.ok, 0⟩ } := by
  have hpass : firstError (checksOf .cfgcommit s) = none := by
    rw [checksOf_cfgcommit, firstError_cfgChecks_append hf hv, checkStagedWidth_pass hpos hle, firstError_pass,
      firstError_nil]
  exact exec_pass hpass

/-- `MSB_MASK` as a shift (10_state.md R27). -/
theorem msbMask_eq_shiftLeft (w : Nat) : msbMask w = 1#64 <<< (w - 1) := by
  apply BitVec.eq_of_toNat_eq
  simp [msbMask, Nat.shiftLeft_eq]

/-- Settles O19: the shared errors, the width check, and the record stored, with its `MSB_MASK` written as a shift. -/
theorem commitValidatesMasksDerivesLocks : Obligations.CommitValidatesMasksDerivesLocks := by
  refine ⟨fun _ => rfl, fun s => ⟨config_refusesFaulted trivial, config_raises_cfgLocked trivial, ?_, ?_⟩⟩
  · intro hf hv hw
    rw [BitVec.ofNat_toNat]
    exact cfgcommit_raises_config hf hv hw
  · intro hf hv hpos hle
    rw [exec_cfgcommit hf hv hpos hle, ← msbMask_eq_shiftLeft, Nat.zero_max]
    rfl

/-! ## Many staging commands (R107) -/

theorem execAll_cons {i : Instr} {s t : State} (h : exec i s = .next t) (l : List Instr) :
    execAll (i :: l) s = execAll l t := by
  simp only [execAll, h]

theorem execAll_append {l : List Instr} {s t : State} (h : execAll l s = .next t) (m : List Instr) :
    execAll (l ++ m) s = execAll m t := by
  induction l generalizing s with
  | nil => injection h with h; rw [h, List.nil_append]
  | cons i l ih =>
    cases hi : exec i s with
    | next u =>
      rw [execAll_cons hi] at h
      rw [List.cons_append, execAll_cons hi, ih h]
    | fault r => simp [execAll, hi] at h
    | refused r => simp [execAll, hi] at h

/-- A list of staging commands runs through, and stages one command after the other. -/
theorem execAll_staging {l : List Instr} {s : State} (hl : ∀ i ∈ l, IsStaging i) (hf : s.err.faulted = false)
    (hv : s.cfgValid = false) : ∃ r, execAll l s = .next { s with stg := l.foldl stageOne s.stg, response := r } := by
  induction l generalizing s with
  | nil => exact ⟨s.response, rfl⟩
  | cons i l ih =>
    obtain ⟨hi, hl⟩ := List.forall_mem_cons.1 hl
    obtain ⟨r, hr⟩ := ih (s := { s with stg := stageOne s.stg i, response := some ⟨.ok, 0⟩ }) hl hf hv
    exact ⟨r, (execAll_cons (exec_staging hi hf hv) l).trans hr⟩

/-- The value staged by the first command is the one held before the others. -/
theorem lastStaged_cons {α : Type} (value : Instr → Option α) (i : Instr) (l : List Instr) (before : α) :
    lastStaged value (i :: l) before = lastStaged value l ((value i).getD before) := by
  cases h : value i with
  | none => simp [lastStaged, h]
  | some v => simp [lastStaged, h, List.getLast?_cons]

/-- The last value staged in each register, or the one held before (R107). -/
def lastStagedRegs (l : List Instr) (g : Staging) : Staging where
  width := (lastStaged cfgwValue l (g.width, g.ri, g.ro)).1
  ri := (lastStaged cfgwValue l (g.width, g.ri, g.ro)).2.1
  ro := (lastStaged cfgwValue l (g.width, g.ri, g.ro)).2.2
  poly := lastStaged cfgpolyValue l g.poly
  xin := lastStaged cfgxinValue l g.xin
  xout := lastStaged cfgxoutValue l g.xout

theorem lastStagedRegs_cons (i : Instr) (l : List Instr) (g : Staging) :
    lastStagedRegs (i :: l) g = lastStagedRegs l (stageOne g i) := by
  simp only [lastStagedRegs, lastStaged_cons]
  cases i <;> rfl

/-- Staging one command after the other leaves the last value staged in each register. -/
theorem foldl_stageOne (l : List Instr) (g : Staging) : l.foldl stageOne g = lastStagedRegs l g := by
  induction l generalizing g with
  | nil => rfl
  | cons i l ih => rw [List.foldl_cons, ih, lastStagedRegs_cons]

/-- Settles O20: the list ends with the last values staged, and those are the values a commit after it finds. -/
theorem lastStagedValueWins : Obligations.LastStagedValueWins := by
  intro l s hl hf hv g
  obtain ⟨r, hr⟩ := execAll_staging hl hf hv
  rw [foldl_stageOne] at hr
  refine ⟨⟨_, hr, rfl⟩, fun hpos hle => ?_⟩
  have hcommit := exec_cfgcommit (s := { s with stg := g, response := r }) hf hv hpos hle
  exact ⟨_, (execAll_append hr _).trans (execAll_cons hcommit []), rfl, rfl⟩

/-! ## The lock (R108) -/

/-- Only the rows of `CFGCOMMIT` and `SRESET` in R42 list the configuration registers. -/
theorem keeps_cfg_cfgValid {i : Instr} {s t : State} (h : Keeps i s t) (hcommit : i ≠ .cfgcommit) (hsreset : i ≠ .sreset) :
    t.cfg = s.cfg ∧ t.cfgValid = s.cfgValid := by
  cases i with
  | cfgcommit => exact absurd rfl hcommit
  | sreset => exact absurd rfl hsreset
  | _ =>
    have hframe : t = _ := h
    rw [hframe]
    exact ⟨rfl, rfl⟩

/-- A commit of a committed block raises an error: its checks do not pass. -/
theorem exec_keeps_committed {i : Instr} {s t : State} (hsreset : i ≠ .sreset) (hv : s.cfgValid = true)
    (h : exec i s = .next t) : t.cfg = s.cfg ∧ t.cfgValid = true := by
  rcases exec_next h with ⟨e, info, -, -, rfl⟩ | ⟨hpass, rfl⟩
  · exact ⟨raise_cfg .., (raise_cfgValid ..).trans hv⟩
  · have hcommit : i ≠ .cfgcommit := by
      rintro rfl
      obtain ⟨hcfg, -⟩ := firstError_append_eq_none.1 hpass
      obtain ⟨-, hunlocked⟩ := cfgChecks_pass hcfg
      exact absurd (hv.symm.trans hunlocked) (by decide)
    obtain ⟨hcfg, hvalid⟩ := keeps_cfg_cfgValid (effectOf_keeps i s) hcommit hsreset
    exact ⟨hcfg, hvalid.trans hv⟩

/-- No word but the one of `SRESET` changes a committed configuration. -/
theorem runWord_keeps_committed {cw : CmdWord} {op : Word} {s t : State} (hcw : cw ≠ 0x000000FF) (hv : s.cfgValid = true)
    (h : runWord cw op s = .next t) : t.cfg = s.cfg ∧ t.cfgValid = true := by
  cases hdec : decode cw op with
  | error e =>
    rw [runWord_illegal s hdec] at h
    injection h with h
    exact h ▸ ⟨raise_cfg .., (raise_cfgValid ..).trans hv⟩
  | ok i =>
    rw [runWord_legal s hdec] at h
    refine exec_keeps_committed ?_ hv h
    rintro rfl
    exact hcw (encodeOfDecode cw op _ hdec).1.symm

/-- Settles O21: one case per event of the host; a reset is one of the exceptions, and a command's word is `SRESET`'s or keeps
the configuration. -/
theorem committedConfigurationIsImmutable : Obligations.CommittedConfigurationIsImmutable := by
  intro s t hv hstep
  rcases step_cases hstep with ⟨-, rfl⟩ | ⟨cw, op, during, rest, u, hin, -, hrun, rfl⟩ | ⟨a, b, rest, -, -, rfl⟩ |
    ⟨rest, hin, -⟩ | ⟨cw, op, rest, hin, -⟩
  · exact .inl ⟨rfl, hv⟩
  · by_cases hcw : cw = 0x000000FF
    · subst hcw
      exact .inr (.inr (.inr ⟨op, during, rest, hin⟩))
    · exact .inl (runWord_keeps_committed (s := { s with inbox := rest, racing := during }) (t := u) hcw hv hrun)
  · exact .inl ⟨rfl, hv⟩
  · exact .inr (.inl ⟨rest, hin⟩)
  · exact .inr (.inr (.inl ⟨cw, op, rest, hin⟩))

end Sys2Proof.Machine
end

section
/-! 41_crc_engine.md R121, R123: the bits of a byte as they enter the fold, and the byte-wide formulation below 8 bits. -/

namespace Sys2Proof.Machine

/-! ## The bits of a byte (R121) -/

theorem foldByte_unreflected {c : CfgRegs} (h : c.reflectIn = false) (r : Word) (d : Byte) :
    foldByte c r d = ([7, 6, 5, 4, 3, 2, 1, 0].map fun i => d.getLsbD i).foldl (foldBit c) r := by
  rw [foldByte, inputByte, h]
  rfl

theorem foldByte_reflected {c : CfgRegs} (h : c.reflectIn = true) (r : Word) (d : Byte) :
    foldByte c r d = ([0, 1, 2, 3, 4, 5, 6, 7].map fun i => d.getLsbD i).foldl (foldBit c) r := by
  have hbits : bitsMsbFirst (reflectByte d) = [0, 1, 2, 3, 4, 5, 6, 7].map fun i => d.getLsbD i := by
    simp [bitsMsbFirst, List.range_succ, getLsbD_reflectByte]
  rw [foldByte, inputByte, h, if_pos rfl, hbits]

/-! ## The byte-wide formulation (R123) -/

/-- A sub-byte register aligned to the top of the 8-bit working register. -/
def alignTop (c : CfgRegs) (r : Word) : Byte := (r <<< c.shift.toNat).setWidth 8

theorem shift_toNat {c : CfgRegs} (hc : CfgLegal c) : c.shift.toNat = 8 - c.width.toNat := by
  have hpos := hc.width_pos
  rw [hc.shift, subByteShift, BitVec.toNat_ofNat, Nat.mod_eq_of_lt (by omega)]

theorem getLsbD_alignTop (c : CfgRegs) (r : Word) {i : Nat} (hi : i < 8) :
    (alignTop c r).getLsbD i = (decide (c.shift.toNat ≤ i) && r.getLsbD (i - c.shift.toNat)) := by
  have h64 : i < 64 := by omega
  simp only [alignTop, BitVec.getLsbD_setWidth, BitVec.getLsbD_shiftLeft, hi, h64, decide_true, Bool.true_and, ← decide_not,
    Nat.not_lt]

theorem alignTop_xor (c : CfgRegs) (r q : Word) : alignTop c (r ^^^ q) = alignTop c r ^^^ alignTop c q := by
  rw [alignTop, BitVec.shiftLeft_xor_distrib, BitVec.setWidth_xor, alignTop, alignTop]

/-- Aligning to the top already drops what `CRC_MASK` masks off. -/
theorem alignTop_and_crcMask {c : CfgRegs} (hc : CfgLegal c) (r : Word) : alignTop c (r &&& c.crcMask) = alignTop c r := by
  have hs := shift_toNat hc
  have hpos := hc.width_pos
  apply BitVec.eq_of_getLsbD_eq
  intro i hi
  rw [getLsbD_alignTop c _ hi, getLsbD_alignTop c r hi, BitVec.getLsbD_and, hc.crcMask, getLsbD_mask _ hc.width_le]
  simp [show i - c.shift.toNat < c.width.toNat by omega]

theorem alignTop_shiftLeft (c : CfgRegs) (r : Word) : alignTop c (r <<< 1) = alignTop c r <<< 1 := by
  rw [alignTop, ← BitVec.shiftLeft_add, Nat.add_comm, BitVec.shiftLeft_add, BitVec.setWidth_shiftLeft_of_le (by decide),
    alignTop]

/-- One turn of R123's loop is `fold_bit` of the top bit of what is left of the message byte. -/
theorem foldBitW8_alignTop_xor {c : CfgRegs} (hc : CfgLegal c) (hw : c.width.toNat < 8) (r : Word) (d : Byte) :
    foldBitW8 c (alignTop c r ^^^ d) = alignTop c (foldBit c r (d.getLsbD 7)) ^^^ (d <<< 1) := by
  have hs := shift_toNat hc
  have hpos := hc.width_pos
  have htop : (alignTop c r ^^^ d).getLsbD 7 = (r.getLsbD (c.width.toNat - 1) ^^ d.getLsbD 7) := by
    rw [BitVec.getLsbD_xor, getLsbD_alignTop c r (by omega), show 7 - c.shift.toNat = c.width.toNat - 1 by omega]
    simp [show c.shift.toNat ≤ 7 by omega]
  rw [foldBitW8, htop, foldBit, BitVec.shiftLeft_xor_distrib]
  split
  · rw [alignTop_xor, alignTop_and_crcMask hc, alignTop_shiftLeft, BitVec.xor_assoc, BitVec.xor_assoc,
      BitVec.xor_comm (d <<< 1)]
    rfl
  · rw [alignTop_and_crcMask hc, alignTop_shiftLeft]

/-- After `k` turns the working register holds the fold of the byte's top `k` bits, and below it the bits still to come. -/
theorem iterate_foldBitW8 {c : CfgRegs} (hc : CfgLegal c) (hw : c.width.toNat < 8) (r : Word) (d : Byte) {k : Nat}
    (hk : k ≤ 8) :
    (foldBitW8 c)^[k] (alignTop c r ^^^ d) =
      alignTop c (((List.range k).map fun i => d.getLsbD (7 - i)).foldl (foldBit c) r) ^^^ (d <<< k) := by
  induction k with
  | zero => simp
  | succ k ih =>
    have hnext : (d <<< k).getLsbD 7 = d.getLsbD (7 - k) := by
      rw [BitVec.getLsbD_shiftLeft]
      simp [show ¬ 7 < k by omega]
    rw [Function.iterate_succ_apply', ih (by omega), foldBitW8_alignTop_xor hc hw, hnext, ← BitVec.shiftLeft_add,
      List.range_succ, List.map_append, List.foldl_append]
    rfl

/-- Eight turns consume the byte and leave its fold at the top of the working register. -/
theorem iterate_foldBitW8_eight {c : CfgRegs} (hc : CfgLegal c) (hw : c.width.toNat < 8) (r : Word) (d : Byte) :
    (foldBitW8 c)^[8] ((r <<< c.shift.toNat).setWidth 8 ^^^ inputByte c d) = alignTop c (foldByte c r d) := by
  have h := iterate_foldBitW8 hc hw r (inputByte c d) le_rfl
  rwa [BitVec.shiftLeft_eq_zero le_rfl, BitVec.xor_zero] at h

/-- Shifting an aligned register down again gives it back. -/
theorem alignTop_ushiftRight {c : CfgRegs} (hc : CfgLegal c) (hw : c.width.toNat < 8) {r : Word} (hr : r &&& c.crcMask = r) :
    (alignTop c r).setWidth 64 >>> c.shift.toNat = r := by
  have hs := shift_toNat hc
  rw [hc.crcMask, and_mask_eq_self _ hc.width_le] at hr
  apply BitVec.eq_of_getLsbD_eq
  intro i hi
  rw [BitVec.getLsbD_ushiftRight, BitVec.getLsbD_setWidth]
  by_cases h : i < c.width.toNat
  · rw [getLsbD_alignTop c r (by omega), Nat.add_sub_cancel_left]
    simp [show c.shift.toNat + i < 64 by omega]
  · rw [hr i (by omega), BitVec.getLsbD_of_ge _ _ (by omega), Bool.and_false]

/-- Settles O28: the loop leaves the fold of the byte aligned to the top, whose bits below `SHIFT` are 0. -/
theorem subByteFormulationAgrees : Obligations.SubByteFormulationAgrees := by
  intro c hc hw r d hr
  have hs := shift_toNat hc
  have hpos := hc.width_pos
  refine ⟨?_, fun j hj => ?_⟩
  · rw [foldByteW8, iterate_foldBitW8_eight hc hw]
    exact alignTop_ushiftRight hc hw (foldl_foldBit_masked hc hr _)
  · rw [iterate_foldBitW8_eight hc hw, getLsbD_alignTop c _ (by omega)]
    simp [show ¬ c.shift.toNat ≤ j by omega]

end Sys2Proof.Machine
end

section
/-! 41_crc_engine.md R132: the fold is polynomial division over GF(2). -/

namespace Sys2Proof.Machine

open Sys2Proof.Statements Polynomial

/-! ## Words as polynomials -/

theorem coeff_polyOf (v : Word) (i : Nat) : (polyOf v).coeff i = if v.getLsbD i then 1 else 0 := by
  have hterm (k : Nat) : (if v.getLsbD k then (X : (ZMod 2)[X]) ^ k else 0).coeff i =
      if i = k then (if v.getLsbD k then 1 else 0) else 0 := by
    cases v.getLsbD k <;> simp [coeff_X_pow]
  have hhigh : i ∉ Finset.range 64 → v.getLsbD i = false := fun h =>
    BitVec.getLsbD_of_ge v i (by simpa using h)
  rw [polyOf, finsetSum_coeff, Finset.sum_congr rfl fun k _ => hterm k, Finset.sum_ite_eq]
  split
  · rfl
  · next h => rw [hhigh h]; rfl

theorem polyOf_xor (v w : Word) : polyOf (v ^^^ w) = polyOf v + polyOf w := by
  ext i
  rw [coeff_add, coeff_polyOf, coeff_polyOf, coeff_polyOf, BitVec.getLsbD_xor]
  cases v.getLsbD i <;> cases w.getLsbD i <;> decide

/-- A word of `WIDTH` bits has degree below `WIDTH`. -/
theorem degree_polyOf_lt {c : CfgRegs} (hc : CfgLegal c) {v : Word} (hv : v &&& c.crcMask = v) :
    (polyOf v).degree < c.width.toNat := by
  rw [hc.crcMask, and_mask_eq_self _ hc.width_le] at hv
  rw [degree_lt_iff_coeff_zero]
  intro i hi
  simp [coeff_polyOf, hv i hi]

theorem genOf_monic {c : CfgRegs} (hc : CfgLegal c) : (genOf c).Monic := monic_X_pow_add (degree_polyOf_lt hc hc.poly)

theorem degree_genOf {c : CfgRegs} (hc : CfgLegal c) : (genOf c).degree = c.width.toNat := by
  rw [genOf, degree_add_eq_left_of_degree_lt, degree_X_pow]
  rw [degree_X_pow]
  exact degree_polyOf_lt hc hc.poly

/-- A register of `WIDTH` bits is a remainder modulo `G`. -/
theorem degree_polyOf_lt_genOf {c : CfgRegs} (hc : CfgLegal c) {v : Word} (hv : v &&& c.crcMask = v) :
    (polyOf v).degree < (genOf c).degree :=
  (degree_polyOf_lt hc hv).trans_eq (degree_genOf hc).symm

/-! ## One bit -/

/-- Adding bits is addition over GF(2). -/
theorem ite_xor_eq_add (a b : Bool) :
    (if a ^^ b then (1 : (ZMod 2)[X]) else 0) = (if a then 1 else 0) + if b then 1 else 0 := by
  cases a <;> cases b <;> simp [CharTwo.add_self_eq_zero]

/-- Shifting a register left multiplies by `x`; the bit that leaves the register is the term `x^WIDTH`. -/
theorem polyOf_shiftLeft_masked {c : CfgRegs} (hc : CfgLegal c) {r : Word} (hr : r &&& c.crcMask = r) :
    polyOf ((r <<< 1) &&& c.crcMask) + (if r.getLsbD (c.width.toNat - 1) then 1 else 0) * X ^ c.width.toNat =
      polyOf r * X := by
  have hpos := hc.width_pos
  have hle := hc.width_le
  rw [hc.crcMask, and_mask_eq_self _ hle] at hr
  ext i
  rw [coeff_add, coeff_polyOf, BitVec.getLsbD_and, hc.crcMask, getLsbD_mask _ hle, BitVec.getLsbD_shiftLeft, ite_mul, one_mul,
    zero_mul, apply_ite (fun p : (ZMod 2)[X] => p.coeff i), coeff_X_pow, coeff_zero]
  cases i with
  | zero => simp [show ¬ 0 = c.width.toNat by omega]
  | succ j =>
    rw [coeff_mul_X, coeff_polyOf, Nat.add_sub_cancel]
    rcases lt_trichotomy (j + 1) c.width.toNat with hj | hj | hj
    · simp [hj, hj.ne, show j + 1 < 64 by omega]
    · simp [← hj]
    · simp [hj.not_gt, hj.ne', hr j (by omega)]

/-- `fold_bit` adds `POLY` when the top bit differs from the message bit (R120). -/
theorem polyOf_foldBit_eq_add (c : CfgRegs) (r : Word) (b : Bool) :
    polyOf (foldBit c r b) =
      polyOf ((r <<< 1) &&& c.crcMask) + (if r.getLsbD (c.width.toNat - 1) ^^ b then 1 else 0) * polyOf c.poly := by
  unfold foldBit
  dsimp only
  split
  · rw [polyOf_xor, one_mul]
  · rw [zero_mul, add_zero]

/-- The quotient of the division by `G` is the one bit that decides whether `POLY` is added: `G = x^WIDTH + POLY`, and what is
added twice vanishes. -/
theorem polyOf_foldBit_add_quotient {c : CfgRegs} (hc : CfgLegal c) {r : Word} (hr : r &&& c.crcMask = r) (b : Bool) :
    polyOf (foldBit c r b) + genOf c * (if r.getLsbD (c.width.toNat - 1) ^^ b then 1 else 0) =
      polyOf r * X + (if b then 1 else 0) * X ^ c.width.toNat := by
  have htwo : (2 : (ZMod 2)[X]) = 0 := CharTwo.two_eq_zero
  rw [polyOf_foldBit_eq_add, ← polyOf_shiftLeft_masked hc hr, ite_xor_eq_add, genOf]
  linear_combination ((if r.getLsbD (c.width.toNat - 1) then 1 else 0) + if b then 1 else 0) * polyOf c.poly * htwo

theorem polyOf_foldBit {c : CfgRegs} (hc : CfgLegal c) {r : Word} (hr : r &&& c.crcMask = r) (b : Bool) :
    polyOf (foldBit c r b) = (polyOf r * X + (if b then 1 else 0) * X ^ c.width.toNat) %ₘ genOf c := by
  have hdeg := degree_polyOf_lt_genOf hc (foldBit_masked hc r b)
  exact (div_modByMonic_unique _ _ (genOf_monic hc) ⟨polyOf_foldBit_add_quotient hc hr b, hdeg⟩).2.symm

/-! ## Many bits -/

theorem polyOfBits_append_singleton (bits : List Bool) (b : Bool) :
    polyOfBits (bits ++ [b]) = polyOfBits bits * X + if b then 1 else 0 := by
  simp [polyOfBits]

/-- A dividend may be reduced modulo `g` before it is multiplied by `x` and added to. -/
theorem modByMonic_mul_X_add_modByMonic {g : (ZMod 2)[X]} (hg : g.Monic) (p q : (ZMod 2)[X]) :
    (p %ₘ g * X + q) %ₘ g = (p * X + q) %ₘ g := by
  refine modByMonic_eq_of_dvd_sub hg ?_
  rw [add_sub_add_right_eq_sub, ← sub_mul]
  exact (dvd_modByMonic_sub p g).mul_right X

theorem polyOf_foldl_foldBit {c : CfgRegs} (hc : CfgLegal c) {r : Word} (hr : r &&& c.crcMask = r) (bits : List Bool) :
    polyOf (bits.foldl (foldBit c) r) =
      (polyOf r * X ^ bits.length + polyOfBits bits * X ^ c.width.toNat) %ₘ genOf c := by
  induction bits using List.reverseRecOn with
  | nil => simpa [polyOfBits] using ((modByMonic_eq_self_iff (genOf_monic hc)).2 (degree_polyOf_lt_genOf hc hr)).symm
  | append_singleton bits b ih =>
    rw [List.foldl_append, List.foldl_cons, List.foldl_nil, polyOf_foldBit hc (foldl_foldBit_masked hc hr bits), ih,
      modByMonic_mul_X_add_modByMonic (genOf_monic hc), polyOfBits_append_singleton, List.length_append]
    refine congrArg (· %ₘ genOf c) ?_
    rw [List.length_singleton]
    ring

/-- Every byte feeds eight bits (R121). -/
theorem length_flatMap_bitsMsbFirst (c : CfgRegs) (bytes : List Byte) :
    (bytes.flatMap fun d => bitsMsbFirst (inputByte c d)).length = 8 * bytes.length := by
  simp [bitsMsbFirst, List.length_flatMap, mul_comm]

/-- Settles O30: one bit is one division step, and a byte sequence is the bits it feeds, eight for each byte. -/
theorem foldIsPolynomialDivision : Obligations.FoldIsPolynomialDivision := by
  intro c hc r hr
  refine ⟨polyOf_foldBit hc hr, fun bytes => ?_⟩
  rw [fold_eq_foldl_bits, polyOf_foldl_foldBit hc hr, length_flatMap_bitsMsbFirst]
  rfl

end Sys2Proof.Machine
end

section
/-! 41_crc_engine.md R125 to R128, 60_exceptions.md R204, R205, R209: the engine commands, their errors and their effects. -/

namespace Sys2Proof.Machine

open Sys2Proof.Statements

/-! ## The errors of the engine and verifier commands -/

/-- Every engine and verifier command begins with these two checks. -/
theorem checksOf_engine {i : Instr} (h : IsEngineCommand i) (s : State) :
    ∃ cs, checksOf i s = checkFaulted s :: checkConfigured s :: cs := by
  cases i with
  | init | update | updateb | final | verify | verifyi => exact ⟨_, rfl⟩
  | _ => exact h.elim

/-- A command that needs a phase begins with the engine's three checks. -/
theorem checksOf_neededPhase {i : Instr} {p : Phase} (h : neededPhase i = some p) (s : State) :
    ∃ cs, checksOf i s = engineChecks p s ++ cs := by
  cases i with
  | update base len => injection h with h; exact ⟨[checkRange base len s], h ▸ rfl⟩
  | updateb | final | verify | verifyi => injection h with h; exact ⟨[], h ▸ rfl⟩
  | _ => cases h

theorem engine_refusesFaulted {i : Instr} {s : State} (h : IsEngineCommand i) (hf : s.err.faulted = true) :
    RefusesFaulted i s := by
  obtain ⟨cs, hcs⟩ := checksOf_engine h s
  have hfirst : firstError (checksOf i s) = some (.faulted, 0) := by simp [hcs, hf]
  exact refusesFaulted_of_firstError hfirst

theorem engine_raises_notConfigured {i : Instr} {s : State} (h : IsEngineCommand i) (hf : s.err.faulted = false)
    (hv : s.cfgValid = false) : Raises i s .notConfigured 0 := by
  obtain ⟨cs, hcs⟩ := checksOf_engine h s
  have hfirst : firstError (checksOf i s) = some (.notConfigured, 0) := by simp [hcs, hf, hv]
  exact raises_of_firstError hfirst hf nofun nofun

theorem engine_raises_phase {i : Instr} {p : Phase} {s : State} (h : neededPhase i = some p) (hf : s.err.faulted = false)
    (hv : s.cfgValid = true) (hp : s.phase ≠ p) : Raises i s .phase (s.phase.bits.setWidth 64) := by
  obtain ⟨cs, hcs⟩ := checksOf_neededPhase h s
  have hfirst : firstError (checksOf i s) = some (.phase, s.phase.bits.setWidth 64) := by
    simp [hcs, engineChecks, hf, hv, hp]
  exact raises_of_firstError hfirst hf nofun nofun

theorem firstError_engineChecks_append {p : Phase} {s : State} (h : Ready p s) (cs : List Check) :
    firstError (engineChecks p s ++ cs) = firstError cs := by
  obtain ⟨hf, hv, hp⟩ := h
  simp [engineChecks, hf, hv, hp]

theorem update_raises_range {base len : BitVec 32} {s : State} (h : Ready .pre s) (hpos : 0 < len.toNat)
    (hout : s.mem.size < base.toNat + len.toNat) :
    Raises (.update base len) s .range (BitVec.ofNat 64 (max base.toNat s.mem.size)) := by
  have ⟨hf, _, _⟩ := h
  refine raises_of_firstError ?_ hf nofun nofun
  rw [checksOf, firstError_engineChecks_append h, checkRange_fail hpos hout, firstError_fail]

/-! ## Their effects -/

/-- The bytes of `MEM` at `n` addresses from `a` up (20_memory.md R53). -/
def rangeBytes (m : Memory) (a n : Nat) : List Byte := (List.range n).map fun k => m.read (a + k)

/-- The state in which a computation holds `r` in `CRC_REG` and has just answered it (R125 to R127). -/
def State.holding (s : State) (r : Word) : State := { s with crcReg := r, phase := .pre, response := some ⟨.ok, r⟩ }

theorem State.holding_of_ready {s : State} (h : Ready .pre s) (r : Word) :
    s.holding r = { s with crcReg := r, response := some ⟨.ok, r⟩ } := by
  obtain ⟨-, -, hphase⟩ := h
  rw [holding, ← hphase]

theorem State.holding_ready {s : State} (hf : s.err.faulted = false) (hv : s.cfgValid = true) (r : Word) :
    Ready .pre (s.holding r) :=
  ⟨hf, hv, rfl⟩

@[simp] theorem State.holding_holding (s : State) (q r : Word) : (s.holding q).holding r = s.holding r := rfl

theorem exec_init {s : State} (hf : s.err.faulted = false) (hv : s.cfgValid = true) :
    exec .init s = .next (s.holding (initValue s.cfg)) :=
  exec_pass (by simp [checksOf, hf, hv])

theorem exec_updateb {s : State} (h : Ready .pre s) (b : Byte) :
    exec (.updateb b) s = .next (s.holding (foldByte s.cfg s.crcReg b)) := by
  rw [State.holding_of_ready h]
  exact exec_pass (engineChecks_of_ready h)

theorem exec_update_unraced {base len : BitVec 32} {s : State} (h : Ready .pre s)
    (hrange : len.toNat = 0 ∨ base.toNat + len.toNat ≤ s.mem.size) (hraced : rangeRaced base len s = false) :
    exec (.update base len) s =
      .next (s.holding (fold s.cfg s.crcReg (rangeBytes s.mem base.toNat len.toNat))) := by
  rw [State.holding_of_ready h, exec_update_ready h hrange, updateEffect, updateBytes_unraced hraced,
    updateDraws_unraced hraced]
  rfl

theorem exec_final {s : State} (h : Ready .pre s) :
    exec .final s = .next { s with
      prefinal := s.crcReg, crcReg := finalizeValue s.cfg s.crcReg, phase := .final,
      response := some ⟨.ok, finalizeValue s.cfg s.crcReg⟩ } :=
  exec_pass (engineChecks_of_ready h)

theorem initValue_unreflected {c : CfgRegs} (h : c.reflectIn = false) : initValue c = c.xorIn := by
  simp [initValue, h]

theorem initValue_reflected {c : CfgRegs} (h : c.reflectIn = true) : initValue c = reflect c.xorIn c.width.toNat := if_pos h

/-- Settles O22: the shared errors, and `init_value` as the two cases of R130. -/
theorem initSetsTheRegister : Obligations.InitSetsTheRegister := by
  refine ⟨fun _ => rfl, fun s => ⟨engine_refusesFaulted trivial, engine_raises_notConfigured trivial, ?_, ?_⟩⟩
  · intro hf hv hri
    rw [exec_init hf hv, initValue_unreflected hri]
    rfl
  · intro hf hv hri
    rw [exec_init hf hv, initValue_reflected hri]
    rfl

/-- Settles O23: the shared errors and the range check, and the effect of an `UPDATE` that no write of the host races. -/
theorem updateFoldsTheRange : Obligations.UpdateFoldsTheRange := by
  refine ⟨fun _ => rfl, fun base len s => ⟨engine_refusesFaulted trivial, engine_raises_notConfigured trivial,
    engine_raises_phase rfl, update_raises_range, ?_⟩⟩
  intro hready hrange hraces
  have hraced : rangeRaced base len s = false := Bool.eq_false_iff.2 (mt rangeRaced_eq_true.1 hraces)
  rw [exec_update_unraced hready hrange hraced, State.holding_of_ready hready]
  rfl

/-- Settles O26: the shared errors, and R129 written out is `finalizeValue`. -/
theorem finalCapturesAndFinalizes : Obligations.FinalCapturesAndFinalizes :=
  ⟨fun _ => rfl, fun _ => ⟨engine_refusesFaulted trivial, engine_raises_notConfigured trivial, engine_raises_phase rfl,
    exec_final⟩⟩

end Sys2Proof.Machine
end

section
/-! 41_crc_engine.md R131: the bytes that `UPDATE` and `UPDATEB` feed decide what they leave, not how the commands cut them. -/

namespace Sys2Proof.Machine

open Sys2Proof.Statements

/-! ## One chunk -/

/-- With no host write in flight, a chunk command leaves the fold of its bytes, whichever command it is. -/
theorem exec_chunk {i : Instr} {s : State} {bytes : List Byte} (h : Ready .pre s) (hquiet : s.racing = [])
    (hi : chunkBytes s.mem i = some bytes) : exec i s = .next (s.holding (fold s.cfg s.crcReg bytes)) := by
  cases i with
  | update base len =>
    rw [chunkBytes, Option.ite_none_right_eq_some] at hi
    obtain ⟨hrange, hbytes⟩ := hi
    injection hbytes with hbytes
    rw [← hbytes]
    exact exec_update_unraced h (hrange.imp_left (congrArg BitVec.toNat)) (rangeRaced_eq_false.2 (by simp [hquiet]))
  | updateb b =>
    injection hi with hi
    rw [← hi]
    exact exec_updateb h b
  | _ => cases hi

theorem rangeBytes_add (m : Memory) (a n₁ n₂ : Nat) :
    rangeBytes m a (n₁ + n₂) = rangeBytes m a n₁ ++ rangeBytes m (a + n₁) n₂ := by
  simp [rangeBytes, List.range_add, Nat.add_assoc]

theorem chunkBytes_update {m : Memory} {base len : BitVec 32} (h : base.toNat + len.toNat ≤ m.size) :
    chunkBytes m (.update base len) = some (rangeBytes m base.toNat len.toNat) :=
  if_pos (.inr h)

/-- The second part of a range that lies in `MEM`. Its base wraps only at the end of a `MEM` of 2^32 bytes, where the part is
empty. -/
theorem chunkBytes_update_second {m : Memory} {base l₁ l₂ : BitVec 32} (hsize : m.size ≤ 2 ^ 32)
    (h : base.toNat + l₁.toNat + l₂.toNat ≤ m.size) :
    chunkBytes m (.update (base + l₁) l₂) = some (rangeBytes m (base.toNat + l₁.toNat) l₂.toNat) := by
  rcases Nat.eq_zero_or_pos l₂.toNat with hempty | hpos
  · have hl₂ : l₂ = 0 := BitVec.eq_of_toNat_eq hempty
    rw [chunkBytes, if_pos (Or.inl hl₂), hempty]
    rfl
  · have hbase : (base + l₁).toNat = base.toNat + l₁.toNat := BitVec.toNat_add_of_lt (by omega)
    rw [chunkBytes_update (by omega), hbase]

/-- Settles O25: the row of `UPDATEB`, the order of the bits (R121), the shared errors, and the byte as a chunk like that of an
`UPDATE`. -/
theorem updatebFoldsTheByte : Obligations.UpdatebFoldsTheByte := by
  refine ⟨fun cw op h => decode_of_matches (r := opcodeRows[7]) (List.getElem_mem _) h op,
    fun c r d => ⟨fun h => foldByte_unreflected h r d, fun h => foldByte_reflected h r d⟩,
    fun b s => ⟨engine_refusesFaulted trivial, engine_raises_notConfigured trivial, engine_raises_phase rfl, ?_, ?_⟩⟩
  · intro hready
    rw [exec_updateb hready, State.holding_of_ready hready]
  · intro base hready hbase hread hquiet
    have hbytes : chunkBytes s.mem (.update base 1) = some [b] := by
      rw [chunkBytes_update (len := 1) hbase, ← hread]
      rfl
    rw [exec_chunk hready hquiet hbytes]
    exact exec_updateb hready b

/-- Settles O27: the three ranges are chunks, and the bytes of the whole range are those of its parts one after the other. -/
theorem splitUpdateIsTheSame : Obligations.SplitUpdateIsTheSame := by
  intro base l₁ l₂ s hready hwf hquiet hlen hrange
  obtain ⟨-, hsize, -⟩ := hwf
  have hl : (l₁ + l₂).toNat = l₁.toNat + l₂.toNat := BitVec.toNat_add_of_lt hlen
  have hfirst : chunkBytes s.mem (.update base l₁) = some (rangeBytes s.mem base.toNat l₁.toNat) :=
    chunkBytes_update (by omega)
  have hsecond := chunkBytes_update_second hsize hrange
  have hwhole : chunkBytes s.mem (.update base (l₁ + l₂)) =
      some (rangeBytes s.mem base.toNat l₁.toNat ++ rangeBytes s.mem (base.toNat + l₁.toNat) l₂.toNat) := by
    rw [chunkBytes_update (by omega), hl, rangeBytes_add]
  have ⟨hf, hv, _⟩ := hready
  refine ⟨_, _, exec_chunk hready hquiet hfirst, exec_chunk (State.holding_ready hf hv _) hquiet hsecond, ?_⟩
  rw [exec_chunk hready hquiet hwhole, fold_append]
  rfl

/-! ## A message in chunks -/

/-- The chunks of a list of commands, one by one. -/
theorem forall₂_of_mapM_eq_some {α β : Type} {f : α → Option β} {l : List α} {bs : List β} (h : l.mapM f = some bs) :
    List.Forall₂ (fun a b => f a = some b) l bs := by
  induction l generalizing bs with
  | nil => cases h; exact .nil
  | cons a l ih =>
    simp only [List.mapM_cons, Option.bind_eq_bind, Option.bind_eq_some_iff, Option.pure_def, Option.some.injEq] at h
    obtain ⟨b, hb, bs', hbs, rfl⟩ := h
    exact .cons hb (ih hbs)

/-- A list of chunk commands leaves the fold of all their bytes, in order. -/
theorem execAll_chunks {l : List Instr} {chunks : List (List Byte)} {s : State} (hf : s.err.faulted = false)
    (hv : s.cfgValid = true) (hquiet : s.racing = [])
    (h : List.Forall₂ (fun i bytes => chunkBytes s.mem i = some bytes) l chunks) (r : Word) :
    execAll l (s.holding r) = .next (s.holding (fold s.cfg r chunks.flatten)) := by
  induction h generalizing r with
  | nil => rfl
  | cons hi _ ih =>
    rw [execAll_cons (exec_chunk (State.holding_ready hf hv r) hquiet hi), State.holding_holding, ih, List.flatten_cons,
      fold_append]
    rfl

theorem foldChunks_eq_fold_flatten (c : CfgRegs) (r : Word) (chunks : List (List Byte)) :
    foldChunks c r chunks = fold c r chunks.flatten := by
  induction chunks generalizing r with
  | nil => rfl
  | cons a as ih => rw [foldChunks_cons, ih, List.flatten_cons, fold_append]

/-- `INIT` and the chunks after it leave the fold of their bytes from `init_value`. -/
theorem execAll_init_chunks {l : List Instr} {chunks : List (List Byte)} {s : State} (hf : s.err.faulted = false)
    (hv : s.cfgValid = true) (hquiet : s.racing = [])
    (h : List.Forall₂ (fun i bytes => chunkBytes s.mem i = some bytes) l chunks) :
    execAll (.init :: l) s = .next (s.holding (fold s.cfg (initValue s.cfg) chunks.flatten)) := by
  rw [execAll_cons (exec_init hf hv), execAll_chunks hf hv hquiet h]

/-- Settles O54: the fold of a concatenation, then `INIT`, the chunks up to each boundary, and `FINAL` after the last. -/
theorem streamingEquivalence : Obligations.StreamingEquivalence := by
  refine ⟨fold_append, foldChunks_eq_fold_flatten, fun s l chunks hf hv hquiet hl => ?_⟩
  have hchunks := forall₂_of_mapM_eq_some hl
  refine ⟨fun k _ => execAll_init_chunks hf hv hquiet (List.forall₂_take k hchunks), ?_⟩
  dsimp only
  rw [execAll_append (execAll_init_chunks hf hv hquiet hchunks), execAll_cons (exec_final (State.holding_ready hf hv _))]
  rfl

end Sys2Proof.Machine
end

section
/-! 42_bit_reflect.md R150 to R152: the laws of reflection, and `REFLECT`. -/

namespace Sys2Proof.Machine

open Sys2Proof.Statements

/-! ## The laws (R151) -/

/-- Reflecting twice sends bit `i` to `n-1-i` and back, and drops the bits from `n` up. -/
theorem reflect_reflect (v : Word) {n : Nat} (hn : n ≤ 64) : reflect (reflect v n) n = v &&& mask n := by
  apply BitVec.eq_of_getLsbD_eq
  intro i _
  rw [getLsbD_reflect _ hn, getLsbD_reflect _ hn, BitVec.getLsbD_and, getLsbD_mask n hn]
  by_cases hi : i < n
  · have hback : n - 1 - (n - 1 - i) = i := by omega
    simp [hi, hback, show n - 1 - i < n by omega]
  · simp [hi]

/-- An `n`-bit value is masked to `n` bits. -/
theorem and_mask_of_lt {x : Word} {n : Nat} (hn : n ≤ 64) (hx : x.toNat < 2 ^ n) : x &&& mask n = x :=
  (and_mask_eq_self x hn).2 fun _ hi =>
    Nat.testBit_lt_two_pow (hx.trans_le (Nat.pow_le_pow_right Nat.two_pos hi))

theorem reflect_zero {n : Nat} (hn : n ≤ 64) : reflect 0 n = 0 := by
  apply BitVec.eq_of_getLsbD_eq
  intro i _
  rw [getLsbD_reflect _ hn]
  simp

theorem reflect_mask {n : Nat} (hn : n ≤ 64) : reflect (mask n) n = mask n := by
  apply BitVec.eq_of_getLsbD_eq
  intro i _
  rw [getLsbD_reflect _ hn, getLsbD_mask n hn, getLsbD_mask n hn]
  by_cases hi : i < n
  · simp [hi, show n - 1 - i < n by omega]
  · simp [hi]

/-- Settles O32: the second law bit by bit, the first from it on a masked value, and the two fixed points. -/
theorem reflectionLaws : Obligations.ReflectionLaws := by
  refine fun n _ hn => ⟨fun x hx => ?_, fun v => reflect_reflect v hn, reflect_zero hn, reflect_mask hn⟩
  rw [reflect_reflect x hn, and_mask_of_lt hn hx]

/-! ## The command (R152) -/

theorem checkReflectWidth_fail {n : BitVec 7} (h : n.toNat < 1 ∨ 64 < n.toNat) :
    checkReflectWidth n = some (.arg, n.setWidth 64) := if_pos h

theorem checksOf_reflect (n : BitVec 7) (op : Word) (s : State) :
    checksOf (.reflect n op) s = [checkFaulted s, checkReflectWidth n] := rfl

theorem reflect_refusesFaulted (n : BitVec 7) (op : Word) {s : State} (hf : s.err.faulted = true) :
    RefusesFaulted (.reflect n op) s := by
  refine refusesFaulted_of_firstError (info := 0) ?_
  rw [checksOf_reflect, checkFaulted_fail hf, firstError_fail]

theorem reflect_raises_arg {n : BitVec 7} (op : Word) {s : State} (hf : s.err.faulted = false)
    (hn : n.toNat < 1 ∨ 64 < n.toNat) : Raises (.reflect n op) s .arg (n.setWidth 64) := by
  refine raises_of_firstError ?_ hf nofun nofun
  rw [checksOf_reflect, checkFaulted_pass hf, firstError_pass, checkReflectWidth_fail hn, firstError_fail]

theorem exec_reflect {n : BitVec 7} (op : Word) {s : State} (hf : s.err.faulted = false) (hpos : 1 ≤ n.toNat)
    (hle : n.toNat ≤ 64) :
    exec (.reflect n op) s = .next { s with response := some ⟨.ok, reflect op n.toNat⟩ } := by
  have hpass : firstError (checksOf (.reflect n op) s) = none := by
    rw [checksOf_reflect, checkFaulted_pass hf, firstError_pass, checkReflectWidth_pass hpos hle, firstError_pass,
      firstError_nil]
  exact exec_pass hpass

/-- Settles O31: the row of `REFLECT` makes the command, its two checks raise its errors, and the value it answers is read bit by
bit. -/
theorem reflectReversesTheLowBits : Obligations.ReflectReversesTheLowBits := by
  refine ⟨fun cw op h => decode_of_matches (r := opcodeRows[9]) (List.getElem_mem _) h op,
    fun n op s => ⟨reflect_refusesFaulted n op, reflect_raises_arg op, fun hf hpos hle => ?_⟩⟩
  refine ⟨reflect op n.toNat, exec_reflect op hf hpos hle, fun i hi => ?_, fun i hi => ?_⟩
  · rw [getLsbD_reflect op hle, decide_eq_true hi, Bool.true_and]
  · rw [getLsbD_reflect op hle, decide_eq_false (Nat.not_lt.2 hi), Bool.false_and]

end Sys2Proof.Machine
end

section
/-! 43_syndrome_verify.md R162, R163: undoing finalize, and the bits that enter when a checksum is fed back. -/

namespace Sys2Proof.Machine

theorem xor_and_distrib (v w m : Word) : (v ^^^ w) &&& m = (v &&& m) ^^^ (w &&& m) := by
  apply BitVec.eq_of_getLsbD_eq
  intro i _
  simp only [BitVec.getLsbD_and, BitVec.getLsbD_xor, Bool.and_xor_distrib_right]

theorem xor_masked {v w m : Word} (hv : v &&& m = v) (hw : w &&& m = w) : (v ^^^ w) &&& m = v ^^^ w := by
  rw [xor_and_distrib, hv, hw]

/-! ## The bits fed back (R163) -/

/-- Bits `u[w-1], ..., u[0]`, in that order. -/
def bitsBelow (w : Nat) (u : Word) : List Bool := (List.range w).map fun i => u.getLsbD (w - 1 - i)

theorem reflectByte_reflectByte (d : Byte) : reflectByte (reflectByte d) = d := by
  apply BitVec.eq_of_getLsbD_eq
  intro i hi
  rw [getLsbD_reflectByte, getLsbD_reflectByte, show 7 - (7 - i) = i by omega]
  simp [hi, show 7 - i < 8 by omega]

/-- The verifier's own reflection and that of `fold_byte` cancel. -/
theorem inputByte_inputByte (c : CfgRegs) (d : Byte) : inputByte c (inputByte c d) = d := by
  unfold inputByte
  split
  · exact reflectByte_reflectByte d
  · rfl

/-- The first byte of a checksum of `k + 1` bytes is its top one, and the others are the bytes of what lies below. -/
theorem checksumBytes_succ (k : Nat) (u : Word) :
    checksumBytes (8 * (k + 1)) u = (u >>> (8 * k)).setWidth 8 :: checksumBytes (8 * k) u := by
  have hshift (i : Nat) : 8 * (k + 1) - 8 * (i + 1) - 8 = 8 * k - 8 * i - 8 := by omega
  simp only [checksumBytes, Nat.mul_div_cancel_left _ (show 0 < 8 by decide), List.range_succ_eq_map, List.map_cons,
    List.map_map, Function.comp_def, Nat.succ_eq_add_one, hshift]
  rfl

theorem bitsBelow_succ_byte (k : Nat) (u : Word) :
    bitsBelow (8 * (k + 1)) u = bitsMsbFirst ((u >>> (8 * k)).setWidth 8) ++ bitsBelow (8 * k) u := by
  rw [bitsBelow, show 8 * (k + 1) = 8 + 8 * k by omega, List.range_add, List.map_append, List.map_map]
  refine congrArg₂ _ (List.map_congr_left fun i hi => ?_) (List.map_congr_left fun i _ => ?_)
  · have hi : i < 8 := List.mem_range.1 hi
    rw [BitVec.getLsbD_setWidth, BitVec.getLsbD_ushiftRight, show 8 + 8 * k - 1 - i = 8 * k + (7 - i) by omega]
    simp [show 7 - i < 8 by omega]
  · exact congrArg u.getLsbD (show 8 + 8 * k - 1 - (8 + i) = 8 * k - 1 - i by omega)

/-- The bytes of a checksum hold its bits, most-significant first. -/
theorem flatMap_checksumBytes (k : Nat) (u : Word) :
    (checksumBytes (8 * k) u).flatMap bitsMsbFirst = bitsBelow (8 * k) u := by
  induction k with
  | zero => rfl
  | succ k ih => rw [checksumBytes_succ, List.flatMap_cons, ih, bitsBelow_succ_byte]

theorem feedBack_eq_foldl_bits {c : CfgRegs} (hw : c.width.toNat % 8 = 0) (pre u : Word) :
    feedBack c pre u = (bitsBelow c.width.toNat u).foldl (foldBit c) pre := by
  obtain ⟨k, hk⟩ := Nat.dvd_of_mod_eq_zero hw
  rw [feedBack, fold_eq_foldl_bits, List.flatMap_map, hk, ← flatMap_checksumBytes]
  simp only [inputByte_inputByte]

/-- Settles O35: the two reflections cancel, and the bytes hold the bits in order. -/
theorem feedBackEntersTheChecksumBits : Obligations.FeedBackEntersTheChecksumBits :=
  fun _ pre u _ hw => feedBack_eq_foldl_bits hw pre u

/-- Only the bits below `WIDTH` are fed back. -/
theorem feedBack_and_crcMask {c : CfgRegs} (hc : CfgLegal c) (hw : c.width.toNat % 8 = 0) (pre u : Word) :
    feedBack c pre (u &&& c.crcMask) = feedBack c pre u := by
  have hpos := hc.width_pos
  have hbits : bitsBelow c.width.toNat (u &&& c.crcMask) = bitsBelow c.width.toNat u := by
    refine List.map_congr_left fun i _ => ?_
    rw [BitVec.getLsbD_and, hc.crcMask, getLsbD_mask _ hc.width_le, decide_eq_true (by omega), Bool.and_true]
  rw [feedBack_eq_foldl_bits hw, hbits, feedBack_eq_foldl_bits hw]

/-! ## Undoing finalize (R162) -/

/-- The order in which finalize hands out the bits of a register (41_crc_engine.md R129). -/
def outputOrder (c : CfgRegs) (r : Word) : Word := if c.reflectOut then reflect r c.width.toNat else r

/-- Reflection reads the low `n` bits only. -/
theorem reflect_and_mask (v : Word) {n : Nat} (hn : n ≤ 64) : reflect (v &&& mask n) n = reflect v n := by
  rw [← reflect_reflect v hn, reflect_reflect _ hn, reflect_masked v hn]

theorem outputOrder_and_crcMask {c : CfgRegs} (hc : CfgLegal c) (r : Word) :
    outputOrder c (r &&& c.crcMask) = outputOrder c r &&& c.crcMask := by
  have hle := hc.width_le
  unfold outputOrder
  split
  · rw [hc.crcMask, reflect_and_mask r hle, reflect_masked r hle]
  · rfl

/-- Reflecting twice restores the bits below `WIDTH` (42_bit_reflect.md R151). -/
theorem outputOrder_outputOrder {c : CfgRegs} (hc : CfgLegal c) (r : Word) :
    outputOrder c (outputOrder c r) &&& c.crcMask = r &&& c.crcMask := by
  unfold outputOrder
  split
  · rw [reflect_reflect r hc.width_le, ← hc.crcMask, and_mask_and_mask]
  · rfl

theorem finalizeValue_eq (c : CfgRegs) (r : Word) :
    finalizeValue c r = (outputOrder c r ^^^ c.xorOut) &&& c.crcMask := rfl

/-- The test for a zero `XOR_OUT` has no effect. -/
theorem unfinalize_eq (c : CfgRegs) (x : Word) : unfinalize c x = outputOrder c (x ^^^ c.xorOut) := by
  have hxor : (if c.xorOut ≠ 0 then x ^^^ c.xorOut else x) = x ^^^ c.xorOut := by
    by_cases h : c.xorOut = 0
    · rw [if_neg (not_not_intro h), h]
      exact BitVec.xor_zero.symm
    · rw [if_pos h]
  rw [unfinalize, hxor, outputOrder]

theorem unfinalize_and_crcMask {c : CfgRegs} (hc : CfgLegal c) (x : Word) :
    unfinalize c (x &&& c.crcMask) = unfinalize c x &&& c.crcMask := by
  have hxor : (x &&& c.crcMask) ^^^ c.xorOut = (x ^^^ c.xorOut) &&& c.crcMask := by
    rw [xor_and_distrib, hc.xorOut]
  rw [unfinalize_eq, hxor, outputOrder_and_crcMask hc, unfinalize_eq]

theorem unfinalize_finalizeValue {c : CfgRegs} (hc : CfgLegal c) (r : Word) :
    unfinalize c (finalizeValue c r) = r &&& c.crcMask := by
  rw [finalizeValue_eq, unfinalize_and_crcMask hc, unfinalize_eq, BitVec.xor_assoc, BitVec.xor_self, BitVec.xor_zero,
    outputOrder_outputOrder hc]

theorem finalizeValue_unfinalize {c : CfgRegs} (hc : CfgLegal c) (x : Word) :
    finalizeValue c (unfinalize c x) = x &&& c.crcMask := by
  rw [finalizeValue_eq, unfinalize_eq, xor_and_distrib, outputOrder_outputOrder hc, ← xor_and_distrib, BitVec.xor_assoc,
    BitVec.xor_self, BitVec.xor_zero]

end Sys2Proof.Machine
end

section
/-! 43_syndrome_verify.md R167: the value of the syndrome over GF(2), and when it is 0. -/

namespace Sys2Proof.Machine

open Sys2Proof.Statements Polynomial

/-! ## The value of the syndrome -/

/-- The last bit read is bit 0; the ones before it are those of the word shifted right. -/
theorem bitsBelow_succ (w : Nat) (u : Word) : bitsBelow (w + 1) u = bitsBelow w (u >>> 1) ++ [u.getLsbD 0] := by
  rw [bitsBelow, List.range_succ, List.map_append, List.map_singleton, Nat.add_sub_cancel, Nat.sub_self]
  refine congrArg (· ++ [u.getLsbD 0]) (List.map_congr_left fun i hi => ?_)
  have hi : i < w := List.mem_range.1 hi
  rw [BitVec.getLsbD_ushiftRight, show 1 + (w - 1 - i) = w - i by omega]

theorem coeff_polyOfBits_bitsBelow (w : Nat) (u : Word) (k : Nat) :
    (polyOfBits (bitsBelow w u)).coeff k = if k < w ∧ u.getLsbD k then 1 else 0 := by
  induction w generalizing u k with
  | zero => simp [bitsBelow, polyOfBits]
  | succ w ih =>
    rw [bitsBelow_succ, polyOfBits_append_singleton, coeff_add]
    cases k with
    | zero =>
      rw [coeff_mul_X_zero, zero_add]
      cases u.getLsbD 0 <;> simp
    | succ j =>
      rw [coeff_mul_X, ih, BitVec.getLsbD_ushiftRight, Nat.add_comm 1 j]
      cases u.getLsbD 0 <;> simp [coeff_one]

/-- A `WIDTH`-bit word read bit by bit from the top is its polynomial. -/
theorem polyOfBits_bitsBelow {c : CfgRegs} (hc : CfgLegal c) {u : Word} (hu : u &&& c.crcMask = u) :
    polyOfBits (bitsBelow c.width.toNat u) = polyOf u := by
  rw [hc.crcMask, and_mask_eq_self _ hc.width_le] at hu
  ext k
  rw [coeff_polyOfBits_bitsBelow, coeff_polyOf]
  by_cases hk : k < c.width.toNat
  · simp [hk]
  · simp [hk, hu k (by omega)]

theorem polyOf_feedBack_bits {c : CfgRegs} (hc : CfgLegal c) (hw : c.width.toNat % 8 = 0) {pre : Word}
    (hpre : pre &&& c.crcMask = pre) (u : Word) :
    polyOf (feedBack c pre u) =
      ((polyOf pre + polyOfBits (bitsBelow c.width.toNat u)) * X ^ c.width.toNat) %ₘ genOf c := by
  rw [feedBack_eq_foldl_bits hw, polyOf_foldl_foldBit hc hpre, add_mul]
  simp [bitsBelow]

theorem polyOf_feedBack {c : CfgRegs} (hc : CfgLegal c) (hw : c.width.toNat % 8 = 0) {pre u : Word}
    (hpre : pre &&& c.crcMask = pre) (hu : u &&& c.crcMask = u) :
    polyOf (feedBack c pre u) = (polyOf (pre ^^^ u) * X ^ c.width.toNat) %ₘ genOf c := by
  rw [polyOf_feedBack_bits hc hw hpre, polyOfBits_bitsBelow hc hu, polyOf_xor]

/-! ## When it is 0 -/

theorem polyOf_eq_zero {v : Word} : polyOf v = 0 ↔ v = 0 := by
  refine ⟨fun h => BitVec.eq_of_getLsbD_eq fun i _ => ?_, fun h => ?_⟩
  · have hi := coeff_polyOf v i
    rw [h, coeff_zero] at hi
    simpa using hi
  · ext i
    simp [h, coeff_polyOf]

theorem feedBack_eq_zero_iff_dvd {c : CfgRegs} (hc : CfgLegal c) (hw : c.width.toNat % 8 = 0) {pre u : Word}
    (hpre : pre &&& c.crcMask = pre) (hu : u &&& c.crcMask = u) :
    feedBack c pre u = 0 ↔ genOf c ∣ polyOf (pre ^^^ u) * X ^ c.width.toNat := by
  rw [← polyOf_eq_zero, polyOf_feedBack hc hw hpre hu, modByMonic_eq_zero_iff_dvd (genOf_monic hc)]

theorem feedBack_self {c : CfgRegs} (hc : CfgLegal c) (hw : c.width.toNat % 8 = 0) {pre : Word}
    (hpre : pre &&& c.crcMask = pre) : feedBack c pre pre = 0 := by
  rw [feedBack_eq_zero_iff_dvd hc hw hpre hpre, polyOf_eq_zero.2 BitVec.xor_self, zero_mul]
  exact dvd_zero _

/-- For an odd `POLY`, `G` shares no factor with `x`. -/
theorem isCoprime_genOf_X_pow {c : CfgRegs} (hc : CfgLegal c) (hodd : c.poly.getLsbD 0 = true) (n : Nat) :
    IsCoprime (genOf c) (X ^ n) := by
  have hpos := hc.width_pos
  have hcoeff : (genOf c).coeff 0 = 1 := by
    simp [genOf, coeff_polyOf, hodd, coeff_X_pow, show ¬ 0 = c.width.toNat by omega]
  have hdvd : ¬ X ∣ genOf c := by
    rw [X_dvd_iff, hcoeff]
    exact one_ne_zero
  exact ((irreducible_X.coprime_iff_not_dvd).2 hdvd).symm.pow_right

theorem feedBack_eq_zero_iff_of_odd {c : CfgRegs} (hc : CfgLegal c) (hw : c.width.toNat % 8 = 0)
    (hodd : c.poly.getLsbD 0 = true) {pre u : Word} (hpre : pre &&& c.crcMask = pre) (hu : u &&& c.crcMask = u) :
    feedBack c pre u = 0 ↔ u = pre := by
  refine ⟨fun h => ?_, fun h => h ▸ feedBack_self hc hw hu⟩
  have hdvd : genOf c ∣ polyOf (pre ^^^ u) :=
    (isCoprime_genOf_X_pow hc hodd _).dvd_of_dvd_mul_right ((feedBack_eq_zero_iff_dvd hc hw hpre hu).1 h)
  have hzero := eq_zero_of_dvd_of_degree_lt hdvd (degree_polyOf_lt_genOf hc (xor_masked hpre hu))
  exact (BitVec.xor_eq_zero_iff.1 (polyOf_eq_zero.1 hzero)).symm

/-- `G / x` as a word, for an even `POLY`. -/
def halfGen (c : CfgRegs) : Word := c.msbMask ^^^ (c.poly >>> 1)

theorem getLsbD_halfGen {c : CfgRegs} (hc : CfgLegal c) (i : Nat) :
    (halfGen c).getLsbD i = (decide (i = c.width.toNat - 1) ^^ c.poly.getLsbD (1 + i)) := by
  rw [halfGen, BitVec.getLsbD_xor, hc.msbMask, getLsbD_msbMask _ hc.width_le hc.width_pos, BitVec.getLsbD_ushiftRight]

theorem getLsbD_halfGen_top {c : CfgRegs} (hc : CfgLegal c) : (halfGen c).getLsbD (c.width.toNat - 1) = true := by
  rw [getLsbD_halfGen hc, poly_high hc (by omega), decide_eq_true rfl, Bool.xor_false]

theorem halfGen_masked {c : CfgRegs} (hc : CfgLegal c) : halfGen c &&& c.crcMask = halfGen c := by
  have hpos := hc.width_pos
  rw [hc.crcMask, and_mask_eq_self _ hc.width_le]
  intro i hi
  rw [getLsbD_halfGen hc, poly_high hc (by omega), decide_eq_false (by omega), Bool.xor_false]

/-- Shifting `G / x` left puts `x^WIDTH` out of the register and leaves `POLY`. -/
theorem halfGen_shiftLeft {c : CfgRegs} (hc : CfgLegal c) (heven : c.poly.getLsbD 0 = false) :
    (halfGen c <<< 1) &&& c.crcMask = c.poly := by
  apply BitVec.eq_of_getLsbD_eq
  intro i hi
  rw [BitVec.getLsbD_and, BitVec.getLsbD_shiftLeft, hc.crcMask, getLsbD_mask _ hc.width_le, getLsbD_halfGen hc]
  cases i with
  | zero => rw [heven]; simp
  | succ j =>
    by_cases hj : j + 1 < c.width.toNat
    · simp [hi, hj, Nat.add_comm 1 j, show ¬ j = c.width.toNat - 1 by omega]
    · simp [hj, poly_high hc (show c.width.toNat ≤ j + 1 by omega)]

theorem polyOf_halfGen_mul_X {c : CfgRegs} (hc : CfgLegal c) (heven : c.poly.getLsbD 0 = false) :
    polyOf (halfGen c) * X = genOf c := by
  rw [← polyOf_shiftLeft_masked hc (halfGen_masked hc), halfGen_shiftLeft hc heven, getLsbD_halfGen_top hc, if_pos rfl,
    one_mul, add_comm, genOf]

theorem halfGen_ne_zero {c : CfgRegs} (hc : CfgLegal c) : halfGen c ≠ 0 := by
  intro h
  have htop := getLsbD_halfGen_top hc
  simp [h] at htop

/-- For an even `POLY`, a checksum that is wrong by `G / x` passes. -/
theorem feedBack_xor_halfGen {c : CfgRegs} (hc : CfgLegal c) (hw : c.width.toNat % 8 = 0)
    (heven : c.poly.getLsbD 0 = false) {pre : Word} (hpre : pre &&& c.crcMask = pre) :
    feedBack c pre (pre ^^^ halfGen c) = 0 := by
  have hpos := hc.width_pos
  rw [feedBack_eq_zero_iff_dvd hc hw hpre (xor_masked hpre (halfGen_masked hc)), ← BitVec.xor_assoc, BitVec.xor_self,
    BitVec.zero_xor, ← polyOf_halfGen_mul_X hc heven]
  exact mul_dvd_mul_left _ (dvd_pow_self X (by omega))

theorem feedBack_of_poly_zero {c : CfgRegs} (hc : CfgLegal c) (hw : c.width.toNat % 8 = 0) (hzero : c.poly = 0)
    {pre : Word} (hpre : pre &&& c.crcMask = pre) (u : Word) : feedBack c pre u = 0 := by
  have hgen : genOf c = X ^ c.width.toNat := by rw [genOf, polyOf_eq_zero.2 hzero, add_zero]
  rw [← polyOf_eq_zero, polyOf_feedBack_bits hc hw hpre, modByMonic_eq_zero_iff_dvd (genOf_monic hc), hgen]
  exact dvd_mul_left _ _

/-- Settles O36: the syndrome is a remainder modulo `G`; an odd `POLY` makes `G` prime to `x`, an even one gives it the factor
`x`, and `POLY = 0` leaves only `x^WIDTH`. -/
theorem zeroSyndromeProperty : Obligations.ZeroSyndromeProperty := by
  intro c hc hw pre hpre
  refine ⟨(unfinalize_finalizeValue hc pre).trans hpre, feedBack_self hc hw hpre, fun u hu => polyOf_feedBack hc hw hpre hu,
    fun hodd u hu => feedBack_eq_zero_iff_of_odd hc hw hodd hpre hu, fun heven => ?_,
    fun hzero u => feedBack_of_poly_zero hc hw hzero hpre u⟩
  exact ⟨pre ^^^ halfGen c, xor_masked hpre (halfGen_masked hc), fun h => halfGen_ne_zero hc (by simpa using h),
    feedBack_xor_halfGen hc hw heven hpre⟩

end Sys2Proof.Machine
end

section
/-! 43_syndrome_verify.md R160, R165, R166: `VERIFY` and `VERIFYI`. -/

namespace Sys2Proof.Machine

open Sys2Proof.Statements

/-! ## The syndrome of a checksum (R160) -/

theorem syndrome_skipped {c : CfgRegs} (hw : c.width.toNat % 8 ≠ 0) (pre x : Word) : syndrome c pre x = (0, true) := by
  simp [syndrome, skipVerify, hw]

theorem syndrome_aligned {c : CfgRegs} (hw : c.width.toNat % 8 = 0) (pre x : Word) :
    syndrome c pre x = (feedBack c pre (unfinalize c x), false) := by
  simp [syndrome, skipVerify, hw]

/-- Only the bits of a checksum below `WIDTH` count (R166). -/
theorem feedBack_unfinalize_and_crcMask {c : CfgRegs} (hc : CfgLegal c) (hw : c.width.toNat % 8 = 0) (pre x : Word) :
    feedBack c pre (unfinalize c (x &&& c.crcMask)) = feedBack c pre (unfinalize c x) := by
  rw [unfinalize_and_crcMask hc, feedBack_and_crcMask hc hw]

theorem syndrome_and_crcMask {c : CfgRegs} (hc : CfgLegal c) (pre x : Word) :
    syndrome c pre (x &&& c.crcMask) = syndrome c pre x := by
  by_cases hw : c.width.toNat % 8 = 0
  · rw [syndrome_aligned hw, syndrome_aligned hw, feedBack_unfinalize_and_crcMask hc hw]
  · rw [syndrome_skipped hw, syndrome_skipped hw]

/-- For an odd `POLY` only the correct checksum has syndrome 0 (R166, R167). -/
theorem eq_finalizeValue_of_feedBack_eq_zero {c : CfgRegs} (hc : CfgLegal c) (hw : c.width.toNat % 8 = 0)
    (hodd : c.poly.getLsbD 0 = true) {pre x : Word} (hpre : pre &&& c.crcMask = pre)
    (h : feedBack c pre (unfinalize c x) = 0) : x &&& c.crcMask = finalizeValue c pre := by
  rw [← feedBack_and_crcMask hc hw, feedBack_eq_zero_iff_of_odd hc hw hodd hpre (and_mask_and_mask ..)] at h
  rw [← h, ← unfinalize_and_crcMask hc, finalizeValue_unfinalize hc, and_mask_and_mask]

/-! ## The effect of the two commands -/

theorem verifyEffect_skipped {s : State} (hw : s.cfg.width.toNat % 8 ≠ 0) (cw : CmdWord) (x : Word) :
    verifyEffect cw x s = { s with syndrome := 0, vskip := true, response := some ⟨.ok, 0⟩ } := by
  have hsyn := syndrome_skipped hw s.prefinal x
  rw [verifyEffect_good (congrArg Prod.fst hsyn), hsyn]
  rfl

theorem verifyEffect_zero {s : State} (hw : s.cfg.width.toNat % 8 = 0) (cw : CmdWord) {x : Word}
    (h : feedBack s.cfg s.prefinal (unfinalize s.cfg x) = 0) :
    verifyEffect cw x s = { s with syndrome := 0, vskip := false, response := some ⟨.ok, 0⟩ } := by
  have hsyn := syndrome_aligned hw s.prefinal x
  rw [verifyEffect_good ((congrArg Prod.fst hsyn).trans h), hsyn]
  rfl

theorem verifyEffect_nonzero {s : State} (hf : s.err.faulted = false) (hw : s.cfg.width.toNat % 8 = 0) (cw : CmdWord)
    {x : Word} (h : feedBack s.cfg s.prefinal (unfinalize s.cfg x) ≠ 0) :
    verifyEffect cw x s = { s with
      syndrome := feedBack s.cfg s.prefinal (unfinalize s.cfg x), vskip := false,
      err := ⟨true, .defect, cw, feedBack s.cfg s.prefinal (unfinalize s.cfg x)⟩,
      response := some ⟨.defect, feedBack s.cfg s.prefinal (unfinalize s.cfg x)⟩ } := by
  have hsyn := syndrome_aligned hw s.prefinal x
  rw [verifyEffect_defect hf (by rwa [hsyn]), hsyn]
  rfl

theorem verifyEffect_and_crcMask {s : State} (hc : CfgLegal s.cfg) (cw : CmdWord) (x : Word) :
    verifyEffect cw (x &&& s.cfg.crcMask) s = verifyEffect cw x s := by
  rw [verifyEffect, syndrome_and_crcMask hc, verifyEffect]

theorem exec_verify {s : State} (h : Ready .final s) : exec .verify s = .next (verifyEffect 0x30 s.crcReg s) :=
  exec_pass (engineChecks_of_ready h)

theorem exec_verifyi {s : State} (h : Ready .final s) (x : Word) :
    exec (.verifyi x) s = .next (verifyEffect 0x31 x s) :=
  exec_pass (engineChecks_of_ready h)

/-- Bits of `OP` at or above `WIDTH` have no effect, whatever the state. -/
theorem exec_verifyi_and_crcMask {s : State} (hc : CfgLegal s.cfg) (x : Word) :
    exec (.verifyi (x &&& s.cfg.crcMask)) s = exec (.verifyi x) s := by
  have heffect : effectOf (.verifyi (x &&& s.cfg.crcMask)) s = effectOf (.verifyi x) s :=
    verifyEffect_and_crcMask hc 0x31 x
  rw [exec_eq_runChecked, exec_eq_runChecked, runChecked, heffect]
  rfl

/-! ## `VERIFYI CRC_REG` and `VERIFY` -/

/-- The state with another command word recorded. -/
def State.withErrCw (s : State) (cw : CmdWord) : State := { s with err := { s.err with cw := cw } }

/-- The word of the command that raises an error is seen in `ERR_CW` only. -/
theorem raise_eq_withErrCw (cw cw' : CmdWord) (e : Code) (info : Word) (s : State) :
    ∃ w, raise cw' e info s = (raise cw e info s).withErrCw w := by
  cases hf : s.err.faulted with
  | true => exact ⟨s.err.cw, by rw [raise_later _ _ _ _ hf, raise_later _ _ _ _ hf]; rfl⟩
  | false =>
    by_cases he : e = .faulted
    · subst he
      exact ⟨s.err.cw, by rw [raise_faulted, raise_faulted]; rfl⟩
    · exact ⟨cw', by rw [raise_first _ _ _ _ he hf, raise_first _ _ _ _ he hf]; rfl⟩

theorem verifyEffect_eq_withErrCw (cw cw' : CmdWord) (x : Word) (s : State) :
    ∃ w, verifyEffect cw' x s = (verifyEffect cw x s).withErrCw w := by
  unfold verifyEffect
  dsimp only
  split
  · exact raise_eq_withErrCw ..
  · exact ⟨s.err.cw, rfl⟩

theorem exec_verifyi_crcReg {s t : State} (h : exec .verify s = .next t) :
    ∃ w, exec (.verifyi s.crcReg) s = .next (t.withErrCw w) := by
  have hchecks : checksOf (.verifyi s.crcReg) s = checksOf .verify s := rfl
  rcases exec_next h with ⟨e, info, hfail, -, rfl⟩ | ⟨hpass, rfl⟩
  · obtain ⟨w, hraise⟩ := raise_eq_withErrCw (encodeCw .verify) (encodeCw (.verifyi s.crcReg)) e info s
    exact ⟨w, by rw [exec_eq_runChecked, runChecked_fail (hchecks ▸ hfail), hraise]⟩
  · obtain ⟨w, heffect⟩ := verifyEffect_eq_withErrCw (encodeCw .verify) (encodeCw (.verifyi s.crcReg)) s.crcReg s
    exact ⟨w, (exec_pass (hchecks ▸ hpass)).trans (congrArg _ heffect)⟩

/-! ## The statements about the commands -/

/-- Settles O34: the shared errors, the three outcomes of a verification, the bits of the checksum that count, the comparison
with `VERIFY`, and for an odd `POLY` the one checksum that passes. -/
theorem verifyiChecksTheOperand : Obligations.VerifyiChecksTheOperand := by
  refine ⟨fun _ => rfl, fun c s => ⟨engine_refusesFaulted trivial, engine_raises_notConfigured trivial,
    engine_raises_phase rfl, fun hready hw => ?_, fun hready hw => ⟨fun hsyn => ?_, fun hsyn => ?_⟩, fun c' hc hcc' => ?_,
    fun t => exec_verifyi_crcReg, fun hc hw hodd hpre hwrong hsyn => ?_⟩⟩
  · rw [exec_verifyi hready, verifyEffect_skipped hw]
  · rw [exec_verifyi hready, verifyEffect_zero hw _ hsyn]
  · have ⟨hf, _, _⟩ := hready
    rw [exec_verifyi hready, verifyEffect_nonzero hf hw _ hsyn]
  · rw [← exec_verifyi_and_crcMask hc, hcc', exec_verifyi_and_crcMask hc]
  · exact hwrong (eq_finalizeValue_of_feedBack_eq_zero hc hw hodd hpre hsyn)

/-- Settles O37: the invariant pairs `CRC_REG` with `PREFINAL`, so finalize is undone and the syndrome is that of a register fed
its own bits. -/
theorem verifyNeverFindsADefect : Obligations.VerifyNeverFindsADefect := by
  intro s hinv hready
  have ⟨_, hv, hp⟩ := hready
  have hc := hinv.committed hv
  rw [exec_verify hready]
  by_cases hw : s.cfg.width.toNat % 8 = 0
  · have hundo : unfinalize s.cfg s.crcReg = s.prefinal := by
      rw [hinv.final_pair hp, unfinalize_finalizeValue hc, hinv.prefinal_masked]
    have hsyn : feedBack s.cfg s.prefinal (unfinalize s.cfg s.crcReg) = 0 := by
      rw [hundo, feedBack_self hc hw hinv.prefinal_masked]
    rw [verifyEffect_zero hw _ hsyn, decide_eq_false (not_not_intro hw)]
  · rw [verifyEffect_skipped hw, decide_eq_true hw]

/-- Settles O33: the shared errors, and the three outcomes of a verification of `CRC_REG`. -/
theorem verifyChecksItsOwnChecksum : Obligations.VerifyChecksItsOwnChecksum := by
  refine ⟨fun _ => rfl, fun s => ⟨engine_refusesFaulted trivial, engine_raises_notConfigured trivial,
    engine_raises_phase rfl, fun hready hw => ?_, fun hready hw => ⟨fun hsyn => ?_, fun hsyn => ?_⟩⟩⟩
  · rw [exec_verify hready, verifyEffect_skipped hw]
  · rw [exec_verify hready, verifyEffect_zero hw _ hsyn]
  · have ⟨hf, _, _⟩ := hready
    rw [exec_verify hready, verifyEffect_nonzero hf hw _ hsyn]

end Sys2Proof.Machine
end

section
/-! 44_control.md R180, R182: `READ` and `SRESET`. -/

namespace Sys2Proof.Machine

open Sys2Proof.Statements

/-! ## `READ` (R180) -/

theorem checkReadIndex_fail {b : Byte} (h : 12 < b.toNat) : checkReadIndex b = some (.arg, b.setWidth 64) := if_pos h

/-- `READ` checks its index and nothing else, so it executes whether the block is faulted or not. -/
theorem checksOf_read (b : Byte) (s : State) : checksOf (.read b) s = [checkReadIndex b] := rfl

theorem firstError_read_fail {b : Byte} (hb : 12 < b.toNat) (s : State) :
    firstError (checksOf (.read b) s) = some (.arg, b.setWidth 64) := by
  rw [checksOf_read, checkReadIndex_fail hb, firstError_fail]

theorem exec_read {b : Byte} (hb : b.toNat ≤ 12) (s : State) :
    exec (.read b) s = .next { s with response := some ⟨.ok, readRegister s b.toNat⟩ } := by
  have hpass : firstError (checksOf (.read b) s) = none := by
    rw [checksOf_read, checkReadIndex_pass hb, firstError_pass, firstError_nil]
  exact exec_pass hpass

/-- In a faulted block an index without a register is answered `ERR_ARG`, and the first error stays recorded (R213). -/
theorem exec_read_fail_of_faulted {b : Byte} {s : State} (hb : 12 < b.toNat) (hf : s.err.faulted = true) :
    exec (.read b) s = .next { s with response := some ⟨.arg, 0⟩ } := by
  rw [exec_eq_runChecked, runChecked_fail (firstError_read_fail hb s), raise_later _ _ _ _ hf]
  rfl

/-- R21's registers, each with its index. -/
def indexedRegisters (s : State) : List (Byte × Word) :=
  (List.range 13).map fun k => (BitVec.ofNat 8 k, readRegister s k)

theorem exec_read_of_mem_indexedRegisters {s : State} {row : Byte × Word} (h : row ∈ indexedRegisters s) :
    exec (.read row.1) s = .next { s with response := some ⟨.ok, row.2⟩ } := by
  obtain ⟨k, hk, rfl⟩ := List.mem_map.1 h
  have hlt : k < 13 := List.mem_range.1 hk
  have hindex : (BitVec.ofNat 8 k).toNat = k := Nat.mod_eq_of_lt (by omega)
  have hread := exec_read (b := BitVec.ofNat 8 k) (by omega) s
  rwa [hindex] at hread

/-- Settles O38: the row of `READ` makes the command, the thirteen rows are the registers with their indices, and a larger index
fails `READ`'s one check. -/
theorem readAnswersTheRegister : Obligations.ReadAnswersTheRegister := by
  refine ⟨fun cw op h => decode_of_matches (r := opcodeRows[12]) (List.getElem_mem _) h op, fun s => ⟨?_, ?_, ?_⟩⟩
  · exact fun row hrow => exec_read_of_mem_indexedRegisters (s := s) hrow
  · exact fun b hb hf => raises_of_firstError (firstError_read_fail hb s) hf nofun nofun
  · exact fun b hb hf => exec_read_fail_of_faulted hb hf

/-! ## `SRESET` (R182) -/

/-- `SRESET` has no check, so it resets the block in every state. -/
theorem exec_sreset (s : State) : exec .sreset s = .next (respond .ok 0 (resetBlock s)) :=
  exec_pass (i := .sreset) firstError_nil

/-- Settles O39: the response follows the reset of the block, which keeps `MEM` and the ports. -/
theorem sresetLeavesTheResetState : Obligations.SresetLeavesTheResetState :=
  ⟨fun _ => rfl, fun s => exec_sreset s⟩

end Sys2Proof.Machine
end

section
/-! 60_exceptions.md R200 to R217, R225: which error a word can meet, what it records and answers, and what stays unchanged. -/

namespace Sys2Proof.Machine

open Sys2Proof.Statements

/-! ## The errors of the checks (R202 to R209, R214) -/

/-- `CheckError i s e info`: a check of command `i` in state `s` may fail with code `e` and information word `info`. -/
inductive CheckError (i : Instr) (s : State) : Code → Word → Prop where
  /-- R209. -/
  | faulted (h : s.err.faulted = true) : CheckError i s .faulted 0
  /-- R203. -/
  | cfgLocked (h : IsConfigCommand i) : CheckError i s .cfgLocked 0
  /-- R202. -/
  | config (h : i = .cfgcommit) : CheckError i s .config (s.stg.width.setWidth 64)
  /-- R204. -/
  | notConfigured (h : IsEngineCommand i) : CheckError i s .notConfigured 0
  /-- R205. -/
  | phase {p : Phase} (h : neededPhase i = some p) : CheckError i s .phase (s.phase.bits.setWidth 64)
  /-- R206. -/
  | range {base len : BitVec 32} (h : i = .update base len) :
      CheckError i s .range (BitVec.ofNat 64 (max base.toNat s.mem.size))
  /-- R207, the width of `REFLECT`. -/
  | argReflect {n : BitVec 7} {op : Word} (h : i = .reflect n op) : CheckError i s .arg (n.setWidth 64)
  /-- R207, the index of `READ`. -/
  | argRead {b : Byte} (h : i = .read b) : CheckError i s .arg (b.setWidth 64)

/-- A check that passes, or fails with an error of command `i`. -/
def Reports (i : Instr) (s : State) (c : Check) : Prop := ∀ e info, c = some (e, info) → CheckError i s e info

theorem reports_ite {i : Instr} {s : State} {p : Prop} [Decidable p] {e : Code} {info : Word} (h : p → CheckError i s e info) :
    Reports i s (if p then some (e, info) else none) := by
  intro e' info' hfail
  split at hfail
  · next hp =>
    cases hfail
    exact h hp
  · cases hfail

theorem reports_ite_none {i : Instr} {s : State} {p : Prop} [Decidable p] {e : Code} {info : Word} (h : CheckError i s e info) :
    Reports i s (if p then none else some (e, info)) := by
  rw [← ite_not]
  exact reports_ite fun _ => h

theorem checkFaulted_reports (i : Instr) (s : State) : Reports i s (checkFaulted s) := reports_ite .faulted

theorem cfgChecks_reports {i : Instr} (h : IsConfigCommand i) (s : State) : ∀ c ∈ cfgChecks s, Reports i s c :=
  List.forall_mem_cons.2 ⟨checkFaulted_reports i s,
    List.forall_mem_singleton.2 (reports_ite fun _ => .cfgLocked h)⟩

theorem checkConfigured_reports {i : Instr} (h : IsEngineCommand i) (s : State) : Reports i s (checkConfigured s) :=
  reports_ite_none (.notConfigured h)

theorem isEngineCommand_of_neededPhase {i : Instr} {p : Phase} (h : neededPhase i = some p) : IsEngineCommand i := by
  cases i with
  | update | updateb | final | verify | verifyi => trivial
  | _ => cases h

theorem engineChecks_reports {i : Instr} {p : Phase} (h : neededPhase i = some p) (s : State) :
    ∀ c ∈ engineChecks p s, Reports i s c :=
  List.forall_mem_cons.2 ⟨checkFaulted_reports i s,
    List.forall_mem_cons.2 ⟨checkConfigured_reports (isEngineCommand_of_neededPhase h) s,
      List.forall_mem_singleton.2 (reports_ite_none (.phase h))⟩⟩

theorem checksOf_reports (i : Instr) (s : State) : ∀ c ∈ checksOf i s, Reports i s c := by
  cases i with
  | cfgw | cfgpoly | cfgxin | cfgxout => exact cfgChecks_reports (by trivial) s
  | cfgcommit =>
    exact List.forall_mem_append.2 ⟨cfgChecks_reports (by trivial) s,
      List.forall_mem_singleton.2 (reports_ite fun _ => .config rfl)⟩
  | init =>
    exact List.forall_mem_cons.2 ⟨checkFaulted_reports _ s,
      List.forall_mem_singleton.2 (checkConfigured_reports (by trivial) s)⟩
  | update base len =>
    exact List.forall_mem_append.2 ⟨engineChecks_reports rfl s,
      List.forall_mem_singleton.2 (reports_ite fun _ => .range rfl)⟩
  | updateb | final | verify | verifyi => exact engineChecks_reports rfl s
  | reflect n op =>
    exact List.forall_mem_cons.2 ⟨checkFaulted_reports _ s,
      List.forall_mem_singleton.2 (reports_ite fun _ => .argReflect rfl)⟩
  | read b => exact List.forall_mem_singleton.2 (reports_ite fun _ => .argRead rfl)
  | sreset => exact nofun

theorem mem_of_firstError {cs : List Check} {x : Code × Word} (h : firstError cs = some x) : some x ∈ cs := by
  induction cs with
  | nil => cases h
  | cons c cs ih =>
    cases c with
    | none => exact .tail _ (ih h)
    | some y => cases h; exact .head _

theorem checkError_of_firstError {i : Instr} {s : State} {e : Code} {info : Word}
    (h : firstError (checksOf i s) = some (e, info)) : CheckError i s e info :=
  checksOf_reports i s _ (mem_of_firstError h) e info rfl

/-! ## Effects (R208, R211 step 6) -/

/-- A verification succeeds and leaves the fault fields, or raises `ERR_DEFECT` on the state it has written. -/
theorem verifyEffect_cases (cw : CmdWord) (checksum : Word) (s : State) :
    ((verifyEffect cw checksum s).response = some ⟨.ok, 0⟩ ∧ (verifyEffect cw checksum s).err = s.err) ∨
      ∃ syn skip, verifyEffect cw checksum s = raise cw .defect syn { s with syndrome := syn, vskip := skip } := by
  unfold verifyEffect
  dsimp only
  split
  · exact .inr ⟨_, _, rfl⟩
  · exact .inl ⟨rfl, rfl⟩

/-- An effect responds with success, when only `SRESET` writes the fault fields, or it is a verification that finds a defect. -/
theorem effectOf_cases (i : Instr) (s : State) :
    (∃ d, (effectOf i s).response = some ⟨.ok, d⟩ ∧ (i ≠ .sreset → (effectOf i s).err = s.err)) ∨
      ∃ syn skip, effectOf i s = raise (encodeCw i) .defect syn { s with syndrome := syn, vskip := skip } := by
  cases i with
  | verify => exact (verifyEffect_cases ..).imp_left fun ⟨hresp, herr⟩ => ⟨0, hresp, fun _ => herr⟩
  | verifyi op => exact (verifyEffect_cases ..).imp_left fun ⟨hresp, herr⟩ => ⟨0, hresp, fun _ => herr⟩
  | sreset => exact .inl ⟨0, rfl, fun h => absurd rfl h⟩
  | _ => exact .inl ⟨_, rfl, fun _ => rfl⟩

/-- A command that responds with an error other than `ERR_DEFECT` failed a check. -/
theorem checkError_of_response {i : Instr} {s t : State} {e : Code} {d : Word} (h : exec i s = .next t)
    (hr : t.response = some ⟨e, d⟩) (hok : e ≠ .ok) (hdefect : e ≠ .defect) : ∃ info, CheckError i s e info := by
  rcases exec_next h with ⟨e', info, hfail, -, rfl⟩ | ⟨-, rfl⟩
  · cases hr
    exact ⟨info, checkError_of_firstError hfail⟩
  · rcases effectOf_cases i s with ⟨d', hresp, -⟩ | ⟨syn, skip, heffect⟩
    · cases hresp.symm.trans hr
      exact absurd rfl hok
    · rw [heffect] at hr
      cases hr
      exact absurd rfl hdefect

/-! ## Words (R201, R211 step 1) -/

/-- `WordError cw op s e info`: the word is illegal, or a check of its command may fail, with code `e` and information word
`info`. -/
inductive WordError (cw : CmdWord) (op : Word) (s : State) : Code → Word → Prop where
  | illegal {x : Illegal} (h : decode cw op = .error x) : WordError cw op s .illegal 0
  | check {i : Instr} {e : Code} {info : Word} (h : decode cw op = .ok i) (hcheck : CheckError i s e info) :
      WordError cw op s e info

theorem CheckError.ne_ok_ne_defect {i : Instr} {s : State} {e : Code} {info : Word} (h : CheckError i s e info) :
    e ≠ .ok ∧ e ≠ .defect := by
  cases h <;> exact ⟨nofun, nofun⟩

theorem WordError.ne_ok_ne_defect {cw : CmdWord} {op : Word} {s : State} {e : Code} {info : Word}
    (h : WordError cw op s e info) : e ≠ .ok ∧ e ≠ .defect := by
  cases h with
  | illegal => exact ⟨nofun, nofun⟩
  | check _ hcheck => exact hcheck.ne_ok_ne_defect

/-- Only a faulted block answers `ERR_FAULTED` (R209). -/
theorem WordError.ne_faulted {cw : CmdWord} {op : Word} {s : State} {e : Code} {info : Word}
    (h : WordError cw op s e info) (hf : s.err.faulted = false) : e ≠ .faulted := by
  rintro rfl
  cases h with
  | check _ hcheck =>
    cases hcheck with
    | faulted h => exact absurd (h.symm.trans hf) nofun

theorem encodeCw_of_decode {cw : CmdWord} {op : Word} {i : Instr} (h : decode cw op = .ok i) : encodeCw i = cw :=
  (encodeOfDecode cw op i h).1

theorem ne_sreset_of_decode {cw : CmdWord} {op : Word} {i : Instr} (h : decode cw op = .ok i) (hcw : cw ≠ 0x000000FF) :
    i ≠ .sreset := by
  rintro rfl
  exact hcw (encodeCw_of_decode h).symm

/-- A word raises the error of its first failing check, of which the first is that it is legal, or its command has its effect. -/
theorem runWord_next {cw : CmdWord} {op : Word} {s t : State} (h : runWord cw op s = .next t) :
    (∃ e info, WordError cw op s e info ∧ t = raise cw e info s) ∨
      ∃ i, decode cw op = .ok i ∧ t = effectOf i s := by
  cases hdec : decode cw op with
  | error x =>
    rw [runWord_illegal s hdec] at h
    injection h with h
    exact .inl ⟨_, _, .illegal hdec, h.symm⟩
  | ok i =>
    rw [runWord_legal s hdec] at h
    rcases exec_next h with ⟨e, info, hfail, -, rfl⟩ | ⟨-, rfl⟩
    · exact .inl ⟨e, info, .check hdec (checkError_of_firstError hfail), by rw [encodeCw_of_decode hdec]⟩
    · exact .inr ⟨i, rfl, rfl⟩

/-- How a word answers an error: its checks raise it, or a verification raises `ERR_DEFECT` after writing its result. -/
theorem runWord_error {cw : CmdWord} {op : Word} {s t : State} {r : Response} (h : runWord cw op s = .next t)
    (hr : t.response = some r) (hok : r.rstat ≠ .ok) :
    (∃ info, WordError cw op s r.rstat info ∧ r.rdata = 0 ∧ t = raise cw r.rstat info s) ∨
      ∃ skip, r.rstat = .defect ∧ t = raise cw .defect r.rdata { s with syndrome := r.rdata, vskip := skip } := by
  rcases runWord_next h with ⟨e, info, herror, rfl⟩ | ⟨i, hdec, rfl⟩
  · cases hr
    exact .inl ⟨info, herror, if_neg herror.ne_ok_ne_defect.2, rfl⟩
  · rcases effectOf_cases i s with ⟨d, hresp, -⟩ | ⟨syn, skip, heffect⟩
    · cases hresp.symm.trans hr
      exact absurd rfl hok
    · rw [heffect, encodeCw_of_decode hdec] at hr ⊢
      cases hr
      exact .inr ⟨skip, rfl, rfl⟩

/-- A word that responds with success leaves the fault fields alone, but for the word of `SRESET`. -/
theorem runWord_ok_err {cw : CmdWord} {op : Word} {s t : State} {r : Response} (h : runWord cw op s = .next t)
    (hr : t.response = some r) (hok : r.rstat = .ok) (hcw : cw ≠ 0x000000FF) : t.err = s.err := by
  rcases runWord_next h with ⟨e, info, herror, rfl⟩ | ⟨i, hdec, rfl⟩
  · cases hr
    exact absurd hok herror.ne_ok_ne_defect.1
  · rcases effectOf_cases i s with ⟨d, -, herr⟩ | ⟨syn, skip, heffect⟩
    · exact herr (ne_sreset_of_decode hdec hcw)
    · rw [heffect] at hr
      cases hr
      cases hok

/-! ## What is recorded (R213, R214) -/

theorem raise_first_err {cw : CmdWord} {e : Code} {info : Word} {s : State} (he : e ≠ .faulted) (hf : s.err.faulted = false) :
    (raise cw e info s).err = ⟨true, e, cw, info⟩ := by
  rw [raise_first _ _ _ _ he hf]

theorem raise_illegal (cw : CmdWord) (s : State) :
    raise cw .illegal 0 s =
      { s with err := if s.err.faulted then s.err else ⟨true, .illegal, cw, 0⟩, response := some ⟨.illegal, 0⟩ } := by
  cases hf : s.err.faulted with
  | true => exact raise_later _ _ _ _ hf
  | false => exact raise_first _ _ _ _ nofun hf

theorem extractLsb'_of_decode_update {cw : CmdWord} {op : Word} {base len : BitVec 32}
    (h : decode cw op = .ok (.update base len)) : op.extractLsb' 0 32 = base := by
  rw [← (encodeOfDecode cw op _ h).2 rfl]
  exact operandBase_append len base

/-- Each error's information word is the one R214's table reads from the word and the state. -/
theorem WordError.info_eq {cw : CmdWord} {op : Word} {s : State} {e : Code} {info : Word} (h : WordError cw op s e info)
    (t : State) : info = infoOf cw op s t e := by
  cases h with
  | illegal => rfl
  | check hdec hcheck =>
    have hcw := encodeCw_of_decode hdec
    cases hcheck with
    | faulted | cfgLocked | config | notConfigured | phase => rfl
    | range hi =>
      subst hi
      rw [infoOf, extractLsb'_of_decode_update hdec]
    | @argReflect n x hi =>
      subst hi
      have hopc : cw.extractLsb' 0 8 = 0x20#8 := hcw ▸ (opcodeByte (.reflect n x)).1
      have hfield : cw.extractLsb' 8 7 = n := hcw ▸ fieldN_encodeCw_reflect n x
      rw [infoOf, if_pos hopc, hfield]
    | @argRead b hi =>
      subst hi
      have hopc : cw.extractLsb' 0 8 = 0x40#8 := hcw ▸ (opcodeByte (.read b)).1
      have hfield : cw.extractLsb' 16 8 = b := hcw ▸ fieldB_append b 0x40
      rw [infoOf, hopc, if_neg (by decide), hfield]

/-! ## The statements about every word -/

/-- Settles O10: a word no row matches is raised as it came, and the host's writes in flight then land. -/
theorem illegalWordRaisesIllegal : Obligations.IllegalWordRaisesIllegal := by
  intro s cw op during rest hin hmem hnone
  rw [step_command hin hmem, runWord_illegal _ (decode_of_no_match (forall_mem_opcodeMap.1 hnone) op), raise_illegal]
  rfl

/-- Settles O47: raising an error writes the fault fields and the response only, and a defect is raised after `SYNDROME` and
`VSKIP` are written. -/
theorem errorsArePrecise : Obligations.ErrorsArePrecise := by
  intro cw op s t r hrun hr hok
  rcases runWord_error hrun hr hok with ⟨info, herror, -, rfl⟩ | ⟨skip, hdefect, rfl⟩
  · exact ⟨fun _ => raise_eq_update .., fun hdefect => absurd hdefect herror.ne_ok_ne_defect.2⟩
  · refine ⟨fun hne => absurd hdefect hne, fun _ => ?_⟩
    rw [raise_syndrome, raise_vskip]
    exact raise_eq_update ..

/-- Settles O48: in a block not faulted `raise` records its arguments, which are the word's and those of R214's table. -/
theorem firstErrorIsRecorded : Obligations.FirstErrorIsRecorded := by
  intro cw op s t r hrun hr hf
  refine ⟨fun hok => ?_, runWord_ok_err hrun hr⟩
  rcases runWord_error hrun hr hok with ⟨info, herror, -, rfl⟩ | ⟨skip, hdefect, rfl⟩
  · rw [← herror.info_eq, raise_first_err (herror.ne_faulted hf) hf]
  · rw [hdefect, infoOf, raise_syndrome]
    exact raise_first_err nofun hf

/-- Settles O49: the checks' errors answer 0, and `ERR_DEFECT` the syndrome the verification has just written. -/
theorem errorDataIsZeroOrTheSyndrome : Obligations.ErrorDataIsZeroOrTheSyndrome := by
  intro cw op s t r hrun hr hok
  rcases runWord_error hrun hr hok with ⟨info, herror, hdata, rfl⟩ | ⟨skip, hdefect, rfl⟩
  · rw [if_neg herror.ne_ok_ne_defect.2, hdata]
  · rw [if_pos hdefect, raise_syndrome]

/-! ## The statements about commands -/

/-- Settles O41: of the commands but `READ` and `SRESET` each checks for a fault first. -/
theorem faultedBlockRefuses : Obligations.FaultedBlockRefuses := by
  intro i s hf hread hsreset
  cases i with
  | cfgw | cfgpoly | cfgxin | cfgxout | cfgcommit => exact config_refusesFaulted trivial hf
  | init | update | updateb | final | verify | verifyi => exact engine_refusesFaulted trivial hf
  | reflect n op => exact reflect_refusesFaulted n op hf
  | read b => exact absurd trivial hread
  | sreset => exact absurd rfl hsreset

/-- Settles O46: an illegal word and a `READ` answer without recording, and every other command but `SRESET` is refused (O41). -/
theorem firstErrorIsKept : Obligations.FirstErrorIsKept := by
  intro cw op s t hf hcw hrun
  cases hdec : decode cw op with
  | error x =>
    rw [runWord_illegal s hdec, raise_later _ _ _ _ hf] at hrun
    cases hrun
    exact ⟨rfl, .inr (.inl ⟨rfl, x, rfl⟩)⟩
  | ok i =>
    rw [runWord_legal s hdec] at hrun
    by_cases hread : IsRead i
    · cases i with
      | read b =>
        by_cases hb : b.toNat ≤ 12
        · cases (exec_read hb s).symm.trans hrun
          exact ⟨rfl, .inr (.inr ⟨b, rfl, .inr ⟨_, rfl⟩⟩)⟩
        · cases (exec_read_fail_of_faulted (Nat.not_le.1 hb) hf).symm.trans hrun
          exact ⟨rfl, .inr (.inr ⟨b, rfl, .inl rfl⟩)⟩
      | _ => exact hread.elim
    · have hrefused : RefusesFaulted i s := faultedBlockRefuses i s hf hread (ne_sreset_of_decode hdec hcw)
      cases hrefused.symm.trans hrun
      exact ⟨rfl, .inl rfl⟩

/-- Settles O11: with no event pending the port only waits. -/
theorem waitingHoldsTheState : Obligations.WaitingHoldsTheState := by
  intro s hin
  simp only [step, portStep, hin]

/-- Settles O42: the lock is the second check of every configuration command. -/
theorem lockedConfigurationRaises : Obligations.LockedConfigurationRaises :=
  fun _ _ hf hv hconfig => config_raises_cfgLocked hconfig hf hv

/-- Settles O43: the second check of the engine commands raises it, and it is an error of no other command's checks. -/
theorem unconfiguredEngineRaises : Obligations.UnconfiguredEngineRaises := by
  refine ⟨fun i s hf hv hengine => engine_raises_notConfigured hengine hf hv, fun i s t d hengine hexec hr => ?_⟩
  obtain ⟨info, hcheck⟩ := checkError_of_response hexec hr nofun nofun
  cases hcheck with
  | notConfigured h => exact hengine h

/-- Settles O44: the phase check raises it, and it is an error of no command accepted in every phase. -/
theorem wrongPhaseRaises : Obligations.WrongPhaseRaises := by
  refine ⟨fun i p s hneeds hf hv hp => engine_raises_phase hneeds hf hv hp, fun i s t d hnone hexec hr => ?_⟩
  obtain ⟨info, hcheck⟩ := checkError_of_response hexec hr nofun nofun
  cases hcheck with
  | phase h => cases hnone.symm.trans h

/-- Settles O45: a ready `UPDATE` raises `ERR_RANGE` outside `MEM`, and inside it has its effect, which is a success. -/
theorem rangeErrorExactly : Obligations.RangeErrorExactly := by
  intro base len s t hready hexec
  by_cases hout : 0 < len.toNat ∧ s.mem.size < base.toNat + len.toNat
  · have hraises := update_raises_range hready hout.1 hout.2
    cases hraises.symm.trans hexec
    exact ⟨iff_of_true ⟨0, rfl⟩ hout, fun _ => ⟨rfl, rfl⟩⟩
  · cases (exec_update_ready hready (by omega)).symm.trans hexec
    have hok : ¬ ∃ d, (updateEffect base len s).response = some ⟨.range, d⟩ := nofun
    exact ⟨iff_of_false hok hout, fun h => absurd h hok⟩

end Sys2Proof.Machine
end

section
/-! 70_reset_and_hazards.md R230 to R234: the reset state, the ways into it, what works in it, and `POLY = 0`. -/

namespace Sys2Proof.Machine

open Sys2Proof.Statements

/-! ## Under a zero polynomial (R234) -/

theorem foldBit_of_poly_zero {c : CfgRegs} (h : c.poly = 0) (r : Word) (b : Bool) :
    foldBit c r b = (r <<< 1) &&& c.crcMask := by
  unfold foldBit
  dsimp only
  split
  · rw [h]; exact BitVec.xor_zero
  · rfl

/-- Each bit folded shifts a 0 in at the bottom, so after `k` bits the lowest `k` are 0. -/
theorem getLsbD_foldl_foldBit_of_poly_zero {c : CfgRegs} (h : c.poly = 0) (r : Word) (bits : List Bool) {i : Nat}
    (hi : i < bits.length) : (bits.foldl (foldBit c) r).getLsbD i = false := by
  induction bits using List.reverseRecOn generalizing i with
  | nil => cases hi
  | append_singleton bits b ih =>
    rw [List.foldl_append, List.foldl_cons, List.foldl_nil, foldBit_of_poly_zero h, BitVec.getLsbD_and,
      BitVec.getLsbD_shiftLeft]
    cases i with
    | zero => simp
    | succ j =>
      have hj : j < bits.length := by simpa using hi
      simp [ih hj]

/-- Folding one bit or more masks the register, whatever it held. -/
theorem foldl_foldBit_masked_of_ne_nil {c : CfgRegs} (hc : CfgLegal c) (r : Word) {bits : List Bool} (h : bits ≠ []) :
    bits.foldl (foldBit c) r &&& c.crcMask = bits.foldl (foldBit c) r := by
  cases bits with
  | nil => exact absurd rfl h
  | cons b bits => exact foldl_foldBit_masked hc (foldBit_masked hc r b) bits

theorem foldl_foldBit_eq_zero {c : CfgRegs} (hc : CfgLegal c) (h : c.poly = 0) (r : Word) {bits : List Bool}
    (hlen : c.width.toNat ≤ bits.length) : bits.foldl (foldBit c) r = 0 := by
  have hmasked := foldl_foldBit_masked_of_ne_nil hc r (List.ne_nil_of_length_pos (hc.width_pos.trans hlen))
  rw [hc.crcMask, and_mask_eq_self _ hc.width_le] at hmasked
  apply BitVec.eq_of_getLsbD_eq
  intro i _
  rw [BitVec.ofNat_eq_ofNat, BitVec.getLsbD_zero]
  by_cases hi : i < c.width.toNat
  · exact getLsbD_foldl_foldBit_of_poly_zero h r bits (hi.trans_le hlen)
  · exact hmasked i (Nat.le_of_not_lt hi)

/-- Settles O29: of the bits that enter, eight for each byte, none is added, and each shifts the register once. -/
theorem zeroPolynomialForgets : Obligations.ZeroPolynomialForgets := by
  refine fun c hc h => ⟨foldBit_of_poly_zero h, fun r bytes hlen => ?_⟩
  rw [fold_eq_foldl_bits]
  exact foldl_foldBit_eq_zero hc h r (hlen.trans_eq (length_flatMap_bitsMsbFirst c bytes).symm)

/-! ## The ways into the reset state (R230) -/

theorem step_hardReset {s : State} {rest : List HostEvent} (hin : s.inbox = .hardReset :: rest) :
    step s = .next (resetBlock { s with inbox := rest }) := by
  simp only [step, portStep, hin, eventStep]

theorem step_resetDuring {s : State} {cw : CmdWord} {op : Word} {rest : List HostEvent}
    (hin : s.inbox = .resetDuring cw op :: rest) : step s = .next (resetBlock { s with inbox := rest }) := by
  simp only [step, portStep, hin, eventStep]

/-- Settles O12: all three are `resetBlock`, and only `SRESET` responds after it. -/
theorem threeResetsAreOne : Obligations.ThreeResetsAreOne :=
  fun s _ => ⟨step_hardReset, fun _ _ => step_resetDuring, exec_sreset s⟩

/-! ## The reset state (R231) -/

@[simp] theorem resetBlock_resetBlock (s : State) : resetBlock (resetBlock s) = resetBlock s := rfl

theorem resetBlock_reset : resetBlock State.reset = State.reset := rfl

theorem statusWord_resetBlock (s : State) : statusWord (resetBlock s) = 0 := by
  have hfields : statusWord (resetBlock s) = statusWord State.reset := rfl
  rw [hfields]
  decide

theorem cfgWord_reset : cfgWord CfgRegs.reset = 0 := rfl

/-- Every index reads 0: the two packed views, the registers by themselves, and the indices without a register. -/
theorem readRegister_resetBlock (s : State) (k : Nat) : readRegister (resetBlock s) k = 0 :=
  match k with
  | 0 => statusWord_resetBlock s
  | 1 => cfgWord_reset
  | 2 | 3 | 4 | 5 | 6 | 7 | 8 | 9 | 10 | 11 | 12 => rfl
  | _ + 13 => rfl

/-- Settles O13: the registers are those `resetBlock` leaves, and what `READ` makes of them is 0. -/
theorem resetStateIsZero : Obligations.ResetStateIsZero :=
  fun s => ⟨resetBlock_cfg s, resetBlock_cfgValid s, resetBlock_phase s, resetBlock_err s, resetBlock_vskip s,
    resetBlock_crcReg s, resetBlock_prefinal s, resetBlock_syndrome s, resetBlock_stg s, resetBlock_response s,
    resetBlock_mem s, readRegister_resetBlock s⟩

/-- Settles O52: the reset of any canonical `MEM` meets it, and at power-up no host write is in flight. -/
theorem resetMeetsTheInvariant : Obligations.ResetMeetsTheInvariant := by
  have hreset : InvInFlight (resetBlock State.reset) := resetBlock_invInFlight empty_wf
  rw [resetBlock_reset] at hreset
  exact inv_iff.2 ⟨hreset, rfl⟩

/-! ## What works in it (R232, R234) -/

theorem exec_read_resetBlock {b : Byte} (hb : b.toNat ≤ 12) (s : State) :
    exec (.read b) (resetBlock s) = .next { resetBlock s with response := some ⟨.ok, 0⟩ } := by
  rw [exec_read hb, readRegister_resetBlock]

theorem exec_sreset_resetBlock (s : State) :
    exec .sreset (resetBlock s) = .next { resetBlock s with response := some ⟨.ok, 0⟩ } := by
  rw [exec_sreset, resetBlock_resetBlock, respond]

/-- Settles O14: the reset block is not faulted, not configured, and has the width 0 staged. -/
theorem whatWorksAfterReset : Obligations.WhatWorksAfterReset := by
  intro s₀ s
  have hf : s.err.faulted = false := rfl
  have hv : s.cfgValid = false := rfl
  have hw : s.stg.width.toNat < 1 := Nat.zero_lt_one
  exact ⟨fun i hi => engine_raises_notConfigured hi hf hv, cfgcommit_raises_config hf hv (.inl hw),
    fun i hi => exec_staging hi hf hv, fun n op hpos hle => exec_reflect op hf hpos hle,
    fun b hb => exec_read_resetBlock hb s₀, exec_sreset_resetBlock s₀⟩

end Sys2Proof.Machine
end
